-- ==== Sys2Proof/Word.lean ====
section
/-! DEFINITION. The widths of the machine's words (spec/10_state.md R32, spec/20_memory.md R54, R64). -/

namespace Sys2Proof

/-- A general register, an operand field, the PC, the MAR, a data byte or a stack entry. -/
abbrev Byte := BitVec 8

/-- A program-memory word and the instruction register (spec/30_encoding.md R80). -/
abbrev Word24 := BitVec 24

/-- A data address as the core forms it (spec/20_memory.md R54). -/
abbrev DataAddr := BitVec 9

/-- The status register's six flag bits (spec/10_state.md R28). -/
abbrev StatusWord := BitVec 6

end Sys2Proof
end

