-- ==== Sys2Proof/Config.lean ====
section
/-! DEFINITION. The named model arguments of spec/00_scope.md R8 as one record, and the free values:
constants without a body, of which nothing can be proved. -/

namespace Sys2Proof

/-- STACK_UNDERFLOW: what a pop of an empty stack does (spec/20_memory.md R61, decision D8). -/
inductive UnderflowPolicy where
  | fault
  | value (w : Byte)
  deriving DecidableEq, Repr

/-- REG_INDEX_POLICY: what a register index of 32 or more does (spec/30_encoding.md R86, decision D9). -/
inductive RegIndexPolicy where
  | fault
  | mask5
  deriving DecidableEq, Repr

/-- A labelled range of program addresses, both ends included (spec/20_memory.md R53). -/
structure Subroutine where
  first : Byte
  last : Byte
  label : String
  deriving DecidableEq, Repr

/-- PROGRAM_IMAGE (spec/20_memory.md R52, decision D23): the words by address, an unlisted address
holding 0x000000, with the subroutine labels as its metadata (R53). -/
structure ProgramImage where
  words : List (Nat × Word24)
  subroutines : List Subroutine
  deriving DecidableEq, Repr

/-- The model arguments of spec/00_scope.md R8 and the two index sets of the snapshot
(spec/93_implementation_defined.md U12). They are fixed for a machine: no step changes one. -/
structure Config where
  /-- PM_SIZE, words of program memory (D2). -/
  pmSize : Nat
  /-- DM_SIZE, bytes of data memory (D4). -/
  dmSize : Nat
  /-- DIR_ADDR, OUT_ADDR, IN_ADDR: the named I/O registers (D5). -/
  dirAddr : Byte
  outAddr : Byte
  inAddr : Byte
  /-- STACK_CAPACITY; `none` is an unbounded stack (D7). -/
  stackCapacity : Option Nat
  stackUnderflow : UnderflowPolicy
  regIndexPolicy : RegIndexPolicy
  image : ProgramImage
  /-- The general registers the snapshot shows (spec/60_exceptions.md R211). -/
  namedRegs : List (Fin 32)
  /-- The I/O locations the snapshot shows beside the three named I/O registers (R211). -/
  namedIo : List Byte
  deriving DecidableEq, Repr

/-- The arguments a machine has where no one names others: the spec's defaults (D2, D4, D8, D9), and
the model's own choices where the spec gives none. DESIGN CHOICE, notes/assumptions/2.md. -/
def Config.standard : Config where
  pmSize := 256
  dmSize := 512
  dirAddr := 0
  outAddr := 1
  inAddr := 2
  stackCapacity := none
  stackUnderflow := .fault
  regIndexPolicy := .fault
  image := { words := [], subroutines := [] }
  namedRegs := []
  namedIo := []

/-- FREE VALUE: what the stack's `top()` answers after the `n`-th reset and before any push, which the
spec leaves unspecified (spec/20_memory.md R62, decision D22, U9). Safe; notes/assumptions/4.md. -/
opaque Config.freeTop : Nat → Byte

/-- FREE VALUE: the snapshot's label of an unrecognized opcode (spec/91_not_in_source.md N19, U10).
Safe; notes/assumptions/14.md. -/
opaque Config.freeMnemonic : Byte → String

/-- FREE VALUE: the snapshot's name of the invalid FSM state, which spec/60_exceptions.md R211 does
not give. Safe; notes/assumptions/14.md. -/
opaque Config.freeStateName : String

end Sys2Proof
end

