-- ==== Sys2Proof/Syntax.lean ====
section
/-! DEFINITION. The instructions as data: one constructor for each row of spec/opcode_table.json. -/

namespace Sys2Proof

/-- The twelve mnemonics of spec/30_encoding.md R83. -/
inductive Mnemonic where
  | nop | ldi | mov | out | inp | sts | lds | jmp | call | ret | push | pop
  deriving DecidableEq, Repr

/-- The mnemonic in capitals, as spec/30_encoding.md R89 spells it. -/
def Mnemonic.name : Mnemonic → String
  | .nop => "NOP"
  | .ldi => "LDI"
  | .mov => "MOV"
  | .out => "OUT"
  | .inp => "IN"
  | .sts => "STS"
  | .lds => "LDS"
  | .jmp => "JMP"
  | .call => "CALL"
  | .ret => "RET"
  | .push => "PUSH"
  | .pop => "POP"

/-- An instruction with the operands it uses, each one whole 8-bit field (spec/30_encoding.md R82,
R83). A field the row marks "ignored" (R87) is no argument; notes/assumptions/9.md. -/
inductive Instr where
  /-- NOP -/
  | nop
  /-- LDI reg, const -/
  | ldi (reg const : Byte)
  /-- MOV dst, src -/
  | mov (dst src : Byte)
  /-- OUT ioaddr, reg -/
  | out (ioaddr reg : Byte)
  /-- IN reg, ioaddr -/
  | inp (reg ioaddr : Byte)
  /-- STS addr, reg -/
  | sts (addr reg : Byte)
  /-- LDS reg, addr -/
  | lds (reg addr : Byte)
  /-- JMP addr -/
  | jmp (addr : Byte)
  /-- CALL addr -/
  | call (addr : Byte)
  /-- RET -/
  | ret
  /-- PUSH reg -/
  | push (reg : Byte)
  /-- POP reg -/
  | pop (reg : Byte)
  /-- Any word whose opcode is none of the twelve (spec/30_encoding.md R85). -/
  | unrecognized (opcode : Byte)
  deriving DecidableEq, Repr

/-- The instruction's mnemonic; the unrecognized space has none. -/
def Instr.mnemonic : Instr → Option Mnemonic
  | .nop => some .nop
  | .ldi _ _ => some .ldi
  | .mov _ _ => some .mov
  | .out _ _ => some .out
  | .inp _ _ => some .inp
  | .sts _ _ => some .sts
  | .lds _ _ => some .lds
  | .jmp _ => some .jmp
  | .call _ => some .call
  | .ret => some .ret
  | .push _ => some .push
  | .pop _ => some .pop
  | .unrecognized _ => none

/-- The register operands, in field order (the `reg`, `dst`, `src` forms of spec/30_encoding.md R82). -/
def Instr.regOperands : Instr → List Byte
  | .nop => []
  | .ldi r _ => [r]
  | .mov d s => [d, s]
  | .out _ r => [r]
  | .inp r _ => [r]
  | .sts _ r => [r]
  | .lds r _ => [r]
  | .jmp _ => []
  | .call _ => []
  | .ret => []
  | .push r => [r]
  | .pop r => [r]
  | .unrecognized _ => []

end Sys2Proof
end

