-- ==== Sys2Proof/WellFormed.lean ====
section
/-! DEFINITION. When a term of `Instr` stands for an encoding, and the obligation the spec puts on a
program's register operands. -/

namespace Sys2Proof

/-- The number of opcodes spec/30_encoding.md R83 assigns; they are 0x00 to 0x0B. -/
def opcodeCount : Nat := 12

/-- A term stands for an encoding unless it calls one of the twelve opcodes unrecognized
(spec/30_encoding.md R83, R85). Every operand admits every 8-bit value (R82). -/
def WellFormed : Instr → Bool
  | .nop => true
  | .ldi _ _ => true
  | .mov _ _ => true
  | .out _ _ => true
  | .inp _ _ => true
  | .sts _ _ => true
  | .lds _ _ => true
  | .jmp _ => true
  | .call _ => true
  | .ret => true
  | .push _ => true
  | .pop _ => true
  | .unrecognized o => decide (opcodeCount ≤ o.toNat)

/-- The invariant "register-file indices always lie in [0,32)", which spec/10_state.md R33 reads as an
obligation on the program. It is no part of `WellFormed`: an index of 32 or more is an encoding, and
spec/30_encoding.md R86 says what it does. -/
def RegOperandsInRange (i : Instr) : Bool := i.regOperands.all fun r => decide (r.toNat < 32)

end Sys2Proof
end

