-- ==== Sys2Proof/Decode.lean ====
section
/-! DEFINITION. Decoding and encoding one 24-bit word (spec/30_encoding.md R80-R90), and a program
image serialised as bytes (decision D17). -/

namespace Sys2Proof

/-- `ir[23:16]` (spec/30_encoding.md R81). -/
def fieldOpcode (w : Word24) : Byte := w.extractLsb' 16 8

/-- `ir[15:8]` (spec/30_encoding.md R81). -/
def fieldOp1 (w : Word24) : Byte := w.extractLsb' 8 8

/-- `ir[7:0]` (spec/30_encoding.md R81). -/
def fieldOp2 (w : Word24) : Byte := w.extractLsb' 0 8

/-- `(opcode << 16) | (op1 << 8) | op2` (spec/30_encoding.md R90). -/
def joinFields (opc op1 op2 : Byte) : Word24 := opc ++ op1 ++ op2

/-- The opcode map of spec/30_encoding.md R83 (decision D1; notes/assumptions/3.md). -/
def Mnemonic.opcode : Mnemonic → Byte
  | .nop => 0x00
  | .ldi => 0x01
  | .mov => 0x02
  | .out => 0x03
  | .inp => 0x04
  | .sts => 0x05
  | .lds => 0x06
  | .jmp => 0x07
  | .call => 0x08
  | .ret => 0x09
  | .push => 0x0A
  | .pop => 0x0B

/-- The instruction EXECUTE dispatches to from the three decoded fields: the opcode alone selects it
(spec/30_encoding.md R83), every other opcode is unrecognized (R85), and ignored fields are not looked
at (R87). -/
def decodeFields (opc op1 op2 : Byte) : Instr :=
  match opc.toNat with
  | 0 => .nop
  | 1 => .ldi op1 op2
  | 2 => .mov op1 op2
  | 3 => .out op1 op2
  | 4 => .inp op1 op2
  | 5 => .sts op1 op2
  | 6 => .lds op1 op2
  | 7 => .jmp op1
  | 8 => .call op1
  | 9 => .ret
  | 10 => .push op1
  | 11 => .pop op1
  | _ => .unrecognized opc

/-- Every 24-bit word is exactly one row of the opcode table. -/
def decode (w : Word24) : Instr := decodeFields (fieldOpcode w) (fieldOp1 w) (fieldOp2 w)

/-- The opcode field of an instruction's word. -/
def Instr.opcode : Instr → Byte
  | .nop => Mnemonic.nop.opcode
  | .ldi _ _ => Mnemonic.ldi.opcode
  | .mov _ _ => Mnemonic.mov.opcode
  | .out _ _ => Mnemonic.out.opcode
  | .inp _ _ => Mnemonic.inp.opcode
  | .sts _ _ => Mnemonic.sts.opcode
  | .lds _ _ => Mnemonic.lds.opcode
  | .jmp _ => Mnemonic.jmp.opcode
  | .call _ => Mnemonic.call.opcode
  | .ret => Mnemonic.ret.opcode
  | .push _ => Mnemonic.push.opcode
  | .pop _ => Mnemonic.pop.opcode
  | .unrecognized o => o

/-- The operand1 field, 0 where the row ignores it (spec/30_encoding.md R90). -/
def Instr.operand1 : Instr → Byte
  | .nop => 0
  | .ldi r _ => r
  | .mov d _ => d
  | .out a _ => a
  | .inp r _ => r
  | .sts a _ => a
  | .lds r _ => r
  | .jmp a => a
  | .call a => a
  | .ret => 0
  | .push r => r
  | .pop r => r
  | .unrecognized _ => 0

/-- The operand2 field, 0 where the row ignores it (spec/30_encoding.md R90). -/
def Instr.operand2 : Instr → Byte
  | .nop => 0
  | .ldi _ k => k
  | .mov _ s => s
  | .out _ r => r
  | .inp _ a => a
  | .sts _ r => r
  | .lds _ a => a
  | .jmp _ => 0
  | .call _ => 0
  | .ret => 0
  | .push _ => 0
  | .pop _ => 0
  | .unrecognized _ => 0

/-- The word of an instruction (spec/30_encoding.md R90). -/
def encode (i : Instr) : Word24 := joinFields i.opcode i.operand1 i.operand2

/-- The bits of a word its instruction looks at: the opcode field, and each operand field its row of
spec/30_encoding.md R83 does not mark "ignored". -/
def Instr.usedBits : Instr → Word24
  | .nop => 0xFF0000
  | .ldi _ _ => 0xFFFFFF
  | .mov _ _ => 0xFFFFFF
  | .out _ _ => 0xFFFFFF
  | .inp _ _ => 0xFFFFFF
  | .sts _ _ => 0xFFFFFF
  | .lds _ _ => 0xFFFFFF
  | .jmp _ => 0xFFFF00
  | .call _ => 0xFFFF00
  | .ret => 0xFF0000
  | .push _ => 0xFFFF00
  | .pop _ => 0xFFFF00
  | .unrecognized _ => 0xFF0000

/-- What a sequence of bytes can have wrong: it ends inside an instruction word. -/
inductive DecodeError where
  | truncated (leftOver : List Byte)
  deriving DecidableEq, Repr

/-- The words of a program image serialised as bytes, the opcode byte first (decision D17). -/
def wordsOfBytes : List Byte → Except DecodeError (List Word24)
  | [] => .ok []
  | [b] => .error (.truncated [b])
  | [b, c] => .error (.truncated [b, c])
  | b :: c :: d :: rest =>
    match wordsOfBytes rest with
    | .ok ws => .ok (joinFields b c d :: ws)
    | .error e => .error e

/-- The bytes of a word, the opcode byte first (decision D17). -/
def bytesOfWord (w : Word24) : List Byte := [fieldOpcode w, fieldOp1 w, fieldOp2 w]

/-- The first instruction of a sequence of bytes, and the rest of the sequence. -/
def decodeBytes : List Byte → Except DecodeError (Instr × List Byte)
  | b :: c :: d :: rest => .ok (decode (joinFields b c d), rest)
  | short => .error (.truncated short)

/-- The word an opcode-table row's bits stand for: the table numbers the bits of the one 24-bit word
from its least significant bit, as spec/00_scope.md R9 does; bits above `nbits` are 0. -/
def tableWord (nbits w : Nat) : Word24 := BitVec.ofNat 24 (w % 2 ^ nbits)

/-- The decoder's answer for a row's word; no 24-bit word is refused (spec/30_encoding.md R83, R85). -/
def decodeTableWord (nbits w : Nat) : Option Instr := some (decode (tableWord nbits w))

end Sys2Proof
end

