-- ==== Sys2Proof/Machine/State.lean ====
section
/-! DEFINITION. The state of the core and of its three stores as plain data, the reasons a step can
stop, and the state right after reset. -/

namespace Sys2Proof.Machine

open Sys2Proof

/-- The FSM state (spec/10_state.md R30): 2 bits, of which `invalid` is the value 3 that the defensive
catch-all of spec/40_fsm_cycle.md R103 handles. -/
inductive FsmState where
  | fetch
  | decode
  | execute
  | invalid
  deriving DecidableEq, Repr

/-- The model faults of spec/60_exceptions.md R204. They are the spec's own way to stop where the
source gives no meaning; none is a behaviour of the core. -/
inductive Fault where
  /-- Code 4. Raised by LDI, MOV, OUT, IN, STS, LDS, PUSH and POP when a register operand is 32..255 and
  REG_INDEX_POLICY = fault (spec/30_encoding.md R86); holds the operand. Safe: the machine stops where the
  spec gives no effect. -/
  | registerIndexOutOfRange (index : Byte)
  /-- Code 5. Raised by CALL and PUSH when the stack holds STACK_CAPACITY entries (spec/20_memory.md R60);
  holds the value not pushed. Safe: the machine stops where the spec gives no effect. -/
  | stackOverflow (value : Byte)
  /-- Code 6. Raised by RET and POP when the stack is empty and STACK_UNDERFLOW = fault
  (spec/20_memory.md R61). Safe: the machine stops where the spec gives no effect. -/
  | stackUnderflow
  deriving DecidableEq, Repr

/-- The reasons the model gives no next state without a model fault. -/
inductive Refusal where
  /-- Raised by an arm of `exec` that has no meaning yet; no arm of this model does. Safe. -/
  | notModelled (mnemonic : String)
  /-- Raised by the host's session for a step asked for before the first reset
  (spec/93_implementation_defined.md U14, spec/90_conflicts.md C9); `step` never raises it. Safe. -/
  | stepBeforeReset
  deriving DecidableEq, Repr

/-- Why a transition performed a full reset (spec/40_fsm_cycle.md R107). -/
inductive ResetCause where
  | unrecognizedOpcode (opc mar : Byte)
  | unrecognizedState
  deriving DecidableEq, Repr

/-- Data memory: bytes by address, addresses strictly rising, no byte equal to the 0 that an unlisted
address reads as (spec/20_memory.md R57). -/
abbrev Memory := List Host.Cell

/-- Program memory in the same form: 24-bit words by word address, an unlisted one reading 0x000000. -/
abbrev ProgramMemory := List (Nat × Word24)

/-- The core's registers (spec/10_state.md R32), the three stores (spec/20_memory.md), the model
arguments they run under, and the model's own count of free values drawn. -/
structure State where
  /-- The model arguments, PROGRAM_IMAGE among them; no step changes them (notes/assumptions/1.md). -/
  cfg : Config
  /-- The general registers (R20). -/
  x : Vector Byte 32
  /-- The program counter (R23). -/
  pc : Byte
  /-- The instruction register (R25). -/
  ir : Word24
  /-- The memory address register (R26). -/
  mar : Byte
  /-- The decoded fields (R27). -/
  opc : Byte
  op1 : Byte
  op2 : Byte
  /-- The status register (R28, R29). -/
  sr : StatusWord
  /-- The FSM state (R30). -/
  state : FsmState
  /-- Program memory (R50). -/
  pm : ProgramMemory
  /-- Data memory (R54). -/
  dm : Memory
  /-- The stack's sequence of bytes, most recent last (R59). -/
  stack : List Byte
  /-- The stack's diagnostic register (R59, R62). -/
  lastPushed : Byte
  /-- The model's own count of free values drawn (notes/assumptions/4.md). -/
  draws : Nat
  deriving DecidableEq, Repr

/-- The machine right after reset (spec/70_reset_and_hazards.md R222, R223). `lastPushed`, which R222
leaves unspecified, is a free value (notes/assumptions/4.md). -/
def State.reset : State where
  cfg := Config.standard
  x := Vector.replicate 32 0
  pc := 0
  ir := 0
  mar := 0
  opc := 0
  op1 := 0
  op2 := 0
  sr := 0
  state := .fetch
  pm := []
  dm := []
  stack := []
  lastPushed := Config.freeTop 0
  draws := 1

end Sys2Proof.Machine
end

