-- ==== Sys2Proof/Machine/Ops.lean ====
section
/-! DEFINITION. The shared operations: the sparse stores, register and PC access, program-memory and
data-memory access, push and pop, and the full reset, which is the one thing this core does about an
exceptional condition. -/

namespace Sys2Proof.Machine

open Sys2Proof

/-- What a sparse store holds at an address; an unlisted address holds 0. -/
def Store.read {n : Nat} : List (Nat × BitVec n) → Nat → BitVec n
  | [], _ => 0#n
  | (b, u) :: rest, a => if a = b then u else Store.read rest a

/-- A store with one address written, in canonical form again: writing 0 takes the entry out. -/
def Store.write {n : Nat} : List (Nat × BitVec n) → Nat → BitVec n → List (Nat × BitVec n)
  | [], a, v => if v = 0#n then [] else [(a, v)]
  | (b, u) :: rest, a, v =>
    if a < b then
      if v = 0#n then (b, u) :: rest else (a, v) :: (b, u) :: rest
    else if a = b then
      if v = 0#n then rest else (a, v) :: rest
    else (b, u) :: Store.write rest a v

/-- Canonical form from an address on: addresses strictly rising, at least `lo`, below `size`, and no
entry 0. -/
def Store.canonFrom {n : Nat} (size : Nat) : Nat → List (Nat × BitVec n) → Bool
  | _, [] => true
  | lo, (b, u) :: rest =>
    decide (lo ≤ b) && decide (b < size) && decide (u ≠ 0#n) && Store.canonFrom size (b + 1) rest

/-- Data memory is in its one canonical form, all addresses below DM_SIZE. -/
def Memory.wf (dmSize : Nat) (m : Memory) : Bool := Store.canonFrom dmSize 0 m

/-- Program memory is in its one canonical form, all addresses below PM_SIZE. -/
def ProgramMemory.wf (pmSize : Nat) (m : ProgramMemory) : Bool := Store.canonFrom pmSize 0 m

/-- What the spec asks of the model arguments: the named I/O registers at distinct addresses (decision
D5), PROGRAM_IMAGE within PM_SIZE (spec/20_memory.md R52) and label ranges that do not overlap (R53). -/
def configOk (c : Config) : Bool :=
  decide (c.dirAddr ≠ c.outAddr) && decide (c.dirAddr ≠ c.inAddr) && decide (c.outAddr ≠ c.inAddr) &&
    ProgramMemory.wf c.pmSize c.image.words &&
    decide (c.image.subroutines.Pairwise fun p q =>
      p.last.toNat < q.first.toNat ∨ q.last.toNat < p.first.toNat)

/-- `x[i]` (spec/00_scope.md R10). -/
def State.reg (s : State) (i : Fin 32) : Byte := s.x[i.val]

/-- `x[i] <- v`; no register is hardwired (spec/10_state.md R20). -/
def State.setReg (s : State) (i : Fin 32) (v : Byte) : State := { s with x := s.x.set i.val v }

/-- `pc <- target`. -/
def State.setPc (s : State) (target : Byte) : State := { s with pc := target }

/-- The write of the FSM state that ends a transition. -/
def State.setState (s : State) (f : FsmState) : State := { s with state := f }

/-- `PmRead(a)` (spec/20_memory.md R51): at and above PM_SIZE the zero instruction. -/
def pmRead (s : State) (a : Byte) : Word24 :=
  if a.toNat < s.cfg.pmSize then Store.read s.pm a.toNat else 0

/-- `MemRead(a, 1)` (spec/20_memory.md R55): at and above DM_SIZE the benign default 0. -/
def memRead (s : State) (a : DataAddr) : Byte :=
  if a.toNat < s.cfg.dmSize then Store.read s.dm a.toNat else 0

/-- `MemWrite(a, 1, v)` (spec/20_memory.md R56): at and above DM_SIZE no effect. -/
def memWrite (s : State) (a : DataAddr) (v : Byte) : State :=
  if a.toNat < s.cfg.dmSize then { s with dm := Store.write s.dm a.toNat v } else s

/-- `depth()` (spec/20_memory.md R62). -/
def stackDepth (s : State) : Nat := s.stack.length

/-- `top()`: the last pushed value, whatever was popped since (spec/20_memory.md R62). -/
def stackTop (s : State) : Byte := s.lastPushed

/-- The stack holds STACK_CAPACITY entries (spec/20_memory.md R60). -/
def stackFull (s : State) : Bool := decide (s.cfg.stackCapacity = some s.stack.length)

/-- The state after a push that fits. -/
def State.pushed (s : State) (v : Byte) : State :=
  { s with stack := s.stack ++ [v], lastPushed := v }

/-- The state after a pop of a stack that holds something: `lastPushed` stays. -/
def State.popped (s : State) : State := { s with stack := s.stack.dropLast }

/-- `Push(v)` (spec/20_memory.md R60). -/
def push (s : State) (v : Byte) : Except Fault State :=
  if stackFull s then .error (.stackOverflow v) else .ok (s.pushed v)

/-- `Pop()` (spec/20_memory.md R61): the byte and the state after it. -/
def pop (s : State) : Except Fault (Byte × State) :=
  match s.stack.getLast? with
  | some v => .ok (v, s.popped)
  | none =>
    match s.cfg.stackUnderflow with
    | .fault => .error .stackUnderflow
    | .value w => .ok (w, s)

/-- `Reset()` (spec/70_reset_and_hazards.md R220): the core's registers, the reload of program memory,
the clear of data memory and of the stack, in one transition. Nothing of the old state is saved (R208).
`lastPushed` is unspecified afterwards (R62, D22): a free value is drawn. -/
def fullReset (s : State) : State where
  cfg := s.cfg
  x := Vector.replicate 32 0
  pc := 0
  ir := 0
  mar := 0
  opc := 0
  op1 := 0
  op2 := 0
  sr := 0
  state := .fetch
  pm := s.cfg.image.words
  dm := []
  stack := []
  lastPushed := Config.freeTop s.draws
  draws := s.draws + 1

/-- The code of a model fault (spec/60_exceptions.md R204). -/
def Fault.code : Fault → Nat
  | .registerIndexOutOfRange _ => 4
  | .stackOverflow _ => 5
  | .stackUnderflow => 6

/-- The code of the cause of a full reset (spec/60_exceptions.md R205). -/
def ResetCause.code : ResetCause → Nat
  | .unrecognizedOpcode _ _ => 1
  | .unrecognizedState => 2

/-- The 2-bit encoding of the FSM state (spec/10_state.md R30, decision D11). -/
def FsmState.encoding : FsmState → BitVec 2
  | .fetch => 0
  | .decode => 1
  | .execute => 2
  | .invalid => 3

/-- The outcome of an instruction's rule: a raised model fault stops the step, and nothing the rule
did before it is kept (spec/60_exceptions.md R204). -/
def outcome : Except Fault State → Host.Outcome State Fault Refusal
  | .ok s => .next s
  | .error f => .fault f

/-- A further effect on the next state, where there is one. -/
def andThen (o : Host.Outcome State Fault Refusal) (k : State → Host.Outcome State Fault Refusal) :
    Host.Outcome State Fault Refusal :=
  match o with
  | .next s => k s
  | .fault f => .fault f
  | .refused r => .refused r

end Sys2Proof.Machine
end

