-- ==== Sys2Proof/Machine/Operands.lean ====
section
/-! DEFINITION. The operand forms of spec/30_encoding.md R82: the register index (R86), the two data
address forms (spec/42_data_memory_ops.md R140), the constant and the program address. -/

namespace Sys2Proof.Machine

open Sys2Proof

/-- `RegIndex(i)` (spec/30_encoding.md R86). -/
def regIndex (s : State) (i : Byte) : Except Fault (Fin 32) :=
  if h : i.toNat < 32 then .ok ⟨i.toNat, h⟩
  else
    match s.cfg.regIndexPolicy with
    | .fault => .error (.registerIndexOutOfRange i)
    | .mask5 => .ok ⟨(i.extractLsb' 0 5).toNat, (i.extractLsb' 0 5).isLt⟩

/-- The I/O-page address, `zext_9(op)` (spec/42_data_memory_ops.md R140). -/
def ioAddr (op : Byte) : DataAddr := op.setWidth 9

/-- The extended-page address, `zext_9(op) + 256` (spec/42_data_memory_ops.md R140). -/
def extAddr (op : Byte) : DataAddr := op.setWidth 9 + 256

/-- The constant form: the byte as it stands (spec/30_encoding.md R82). -/
def constant (op : Byte) : Byte := op

/-- The program-address form: an absolute word address (spec/43_control_transfer.md R163). -/
def progAddr (op : Byte) : Byte := op

end Sys2Proof.Machine
end

