-- ==== Sys2Proof/Machine/Control.lean ====
section
/-! DEFINITION. JMP, CALL and RET (spec/43_control_transfer.md). In EXECUTE `pc` already holds the
address of the next instruction (R24, R226). -/

namespace Sys2Proof.Machine

open Sys2Proof

/-- JMP addr: `pc <- op1` (spec/43_control_transfer.md R160). -/
def execJmp (addr : Byte) (s : State) : Host.Outcome State Fault Refusal :=
  .next (s.setPc (progAddr addr))

/-- CALL addr: push the return address, then jump (spec/43_control_transfer.md R161). -/
def execCall (addr : Byte) (s : State) : Host.Outcome State Fault Refusal :=
  outcome do
    let t ← push s s.pc
    pure (t.setPc (progAddr addr))

/-- RET: `pc <- Pop()` (spec/43_control_transfer.md R162). -/
def execRet (s : State) : Host.Outcome State Fault Refusal :=
  outcome do
    let (v, t) ← pop s
    pure (t.setPc v)

end Sys2Proof.Machine
end

