-- ==== Sys2Proof/Machine/DataMemory.lean ====
section
/-! DEFINITION. OUT, IN, STS and LDS (spec/42_data_memory_ops.md). -/

namespace Sys2Proof.Machine

open Sys2Proof

/-- OUT ioaddr, reg: a register to the I/O page (spec/42_data_memory_ops.md R142). -/
def execOut (ioaddr reg : Byte) (s : State) : Host.Outcome State Fault Refusal :=
  outcome do
    let r ← regIndex s reg
    pure (memWrite s (ioAddr ioaddr) (s.reg r))

/-- IN reg, ioaddr: the I/O page to a register (spec/42_data_memory_ops.md R143). -/
def execIn (reg ioaddr : Byte) (s : State) : Host.Outcome State Fault Refusal :=
  outcome do
    let d ← regIndex s reg
    pure (s.setReg d (memRead s (ioAddr ioaddr)))

/-- STS addr, reg: a register to the extended page (spec/42_data_memory_ops.md R144). -/
def execSts (addr reg : Byte) (s : State) : Host.Outcome State Fault Refusal :=
  outcome do
    let r ← regIndex s reg
    pure (memWrite s (extAddr addr) (s.reg r))

/-- LDS reg, addr: the extended page to a register (spec/42_data_memory_ops.md R145). -/
def execLds (reg addr : Byte) (s : State) : Host.Outcome State Fault Refusal :=
  outcome do
    let d ← regIndex s reg
    pure (s.setReg d (memRead s (extAddr addr)))

end Sys2Proof.Machine
end

