-- ==== Sys2Proof/Machine/Recovery.lean ====
section
/-! DEFINITION. The unrecognized opcode (spec/60_exceptions.md R200). -/

namespace Sys2Proof.Machine

open Sys2Proof

/-- An unrecognized opcode performs the full reset and nothing else: no operand is looked at
(spec/60_exceptions.md R200). -/
def execUnrecognized (_opcode : Byte) (s : State) : Host.Outcome State Fault Refusal :=
  .next (fullReset s)

end Sys2Proof.Machine
end

