-- ==== Sys2Proof/Machine/Register.lean ====
section
/-! DEFINITION. NOP, LDI and MOV (spec/41_register_ops.md). -/

namespace Sys2Proof.Machine

open Sys2Proof

/-- NOP: no effect (spec/41_register_ops.md R120). -/
def execNop (s : State) : Host.Outcome State Fault Refusal := .next s

/-- LDI reg, const: `x[d] <- op2` (spec/41_register_ops.md R121). -/
def execLdi (reg const : Byte) (s : State) : Host.Outcome State Fault Refusal :=
  outcome do
    let d ← regIndex s reg
    pure (s.setReg d (constant const))

/-- MOV dst, src: `x[d] <- x[s]`, both indices checked first, `dst` before `src`
(spec/41_register_ops.md R122, decision D9). -/
def execMov (dst src : Byte) (s : State) : Host.Outcome State Fault Refusal :=
  outcome do
    let d ← regIndex s dst
    let r ← regIndex s src
    pure (s.setReg d (s.reg r))

end Sys2Proof.Machine
end

