-- ==== Sys2Proof/Machine/StackOps.lean ====
section
/-! DEFINITION. PUSH and POP (spec/44_stack_ops.md): the register index is checked before the stack. -/

namespace Sys2Proof.Machine

open Sys2Proof

/-- PUSH reg (spec/44_stack_ops.md R180). -/
def execPush (reg : Byte) (s : State) : Host.Outcome State Fault Refusal :=
  outcome do
    let r ← regIndex s reg
    push s (s.reg r)

/-- POP reg (spec/44_stack_ops.md R181). -/
def execPop (reg : Byte) (s : State) : Host.Outcome State Fault Refusal :=
  outcome do
    let d ← regIndex s reg
    let (v, t) ← pop s
    pure (t.setReg d v)

end Sys2Proof.Machine
end

