-- ==== Sys2Proof/Machine/Dispatch.lean ====
section
/-! DEFINITION. `Exec[opc](op1, op2)` of spec/40_fsm_cycle.md R102: one arm per row of the opcode table.
The write of the FSM state that ends the transition is Machine/Cycle.lean's. -/

namespace Sys2Proof.Machine

open Sys2Proof

def exec (i : Instr) (s : State) : Host.Outcome State Fault Refusal :=
  match i with
  | .nop => Sys2Proof.Machine.execNop s
  | .ldi reg const => Sys2Proof.Machine.execLdi reg const s
  | .mov dst src => Sys2Proof.Machine.execMov dst src s
  | .out ioaddr reg => Sys2Proof.Machine.execOut ioaddr reg s
  | .inp reg ioaddr => Sys2Proof.Machine.execIn reg ioaddr s
  | .sts addr reg => Sys2Proof.Machine.execSts addr reg s
  | .lds reg addr => Sys2Proof.Machine.execLds reg addr s
  | .jmp addr => Sys2Proof.Machine.execJmp addr s
  | .call addr => Sys2Proof.Machine.execCall addr s
  | .ret => Sys2Proof.Machine.execRet s
  | .push reg => Sys2Proof.Machine.execPush reg s
  | .pop reg => Sys2Proof.Machine.execPop reg s
  | .unrecognized opcode => Sys2Proof.Machine.execUnrecognized opcode s

end Sys2Proof.Machine
end

