-- ==== Sys2Proof/Machine/Cycle.lean ====
section
/-! DEFINITION. The FSM's transitions, single-step, full-cycle-step and the observational outcome tag
(spec/40_fsm_cycle.md R100-R107), and the placing of an instruction where it is fetched next. -/

namespace Sys2Proof.Machine

open Sys2Proof

/-- FETCH (spec/40_fsm_cycle.md R100); every read is of the state before it (spec/00_scope.md R11). -/
def fetchTransition (s : State) : State :=
  { s with ir := pmRead s s.pc, mar := s.pc, pc := s.pc + 1, state := .decode }

/-- DECODE (spec/40_fsm_cycle.md R101). -/
def decodeTransition (s : State) : State :=
  { s with opc := fieldOpcode s.ir, op1 := fieldOp1 s.ir, op2 := fieldOp2 s.ir, state := .execute }

/-- The instruction the decoded fields hold; EXECUTE reads them, not `ir` (spec/10_state.md R27). -/
def decodedInstr (s : State) : Instr := decodeFields s.opc s.op1 s.op2

/-- EXECUTE (spec/40_fsm_cycle.md R102): the instruction's rule, then `state <- FETCH`. A full reset
leaves FETCH by itself. A raised model fault leaves no effect at all. -/
def executeTransition (s : State) : Host.Outcome State Fault Refusal :=
  andThen (exec (decodedInstr s) s) fun t => .next (t.setState .fetch)

/-- single-step (spec/40_fsm_cycle.md R104): the one transition the FSM state selects. In the invalid
state it is the full reset (R103). -/
def singleStep (s : State) : Host.Outcome State Fault Refusal :=
  match s.state with
  | .fetch => .next (fetchTransition s)
  | .decode => .next (decodeTransition s)
  | .execute => executeTransition s
  | .invalid => .next (fullReset s)

/-- The loop of spec/40_fsm_cycle.md R105 for at most `n` transitions. -/
def cycleLoop : Nat → State → Host.Outcome State Fault Refusal
  | 0, s => .next s
  | n + 1, s => andThen (singleStep s) fun t => if s.state = .execute then .next t else cycleLoop n t

/-- full-cycle-step (spec/40_fsm_cycle.md R105; spec/90_conflicts.md C1): single-steps until one that
started in EXECUTE has been performed. Four transitions always suffice (R105). -/
def fullCycleStep (s : State) : Host.Outcome State Fault Refusal := cycleLoop 4 s

/-- `n` single-steps, stopping at the first fault. -/
def singleSteps : Nat → State → Host.Outcome State Fault Refusal
  | 0, s => .next s
  | n + 1, s => andThen (singleStep s) (singleSteps n)

/-- How many transitions a full-cycle-step takes from a given FSM state (spec/40_fsm_cycle.md R105). -/
def cycleLength : FsmState → Nat
  | .fetch => 3
  | .decode => 2
  | .execute => 1
  | .invalid => 4

/-- The cause of the full reset the next transition performs, if it performs one
(spec/40_fsm_cycle.md R107). -/
def resetCause (s : State) : Option ResetCause :=
  match s.state with
  | .fetch => none
  | .decode => none
  | .execute =>
    match decodedInstr s with
    | .unrecognized o => some (.unrecognizedOpcode o s.mar)
    | _ => none
  | .invalid => some .unrecognizedState

/-- The outcome of one transition with its tag (spec/40_fsm_cycle.md R107, decision D19). -/
inductive Tagged where
  | ok (s : State)
  | reset (cause : ResetCause) (s : State)
  | fault (f : Fault)
  | refused (r : Refusal)
  deriving DecidableEq, Repr

/-- A single-step with its tag. The tag is observational: the next state is `singleStep`'s. -/
def taggedStep (s : State) : Tagged :=
  match singleStep s with
  | .next t =>
    match resetCause s with
    | some c => .reset c t
    | none => .ok t
  | .fault f => .fault f
  | .refused r => .refused r

/-- The outcome without its tag. -/
def Tagged.untagged : Tagged → Host.Outcome State Fault Refusal
  | .ok s => .next s
  | .reset _ s => .next s
  | .fault f => .fault f
  | .refused r => .refused r

/-- A word placed in PROGRAM_IMAGE, and so in program memory, which always equals it
(spec/20_memory.md R52); PM_SIZE grows to hold the address if it did not. -/
def loadWord (s : State) (a : Nat) (w : Word24) : State :=
  { s with
    pm := Store.write s.pm a w
    cfg := { s.cfg with
      pmSize := max s.cfg.pmSize (a + 1)
      image := { s.cfg.image with words := Store.write s.cfg.image.words a w } } }

/-- A state whose next full-cycle-step fetches and runs a given word: the word stands at `pc` and the
FSM is in FETCH (notes/assumptions/8.md). -/
def placeInstr (s : State) (w : Word24) : State := (loadWord s s.pc.toNat w).setState .fetch

end Sys2Proof.Machine
end

