-- ==== Sys2Proof/Machine/Step.lean ====
section
/-! DEFINITION. One step of the machine: the full-cycle-step of spec/40_fsm_cycle.md R105, one complete
FETCH, DECODE, EXECUTE (DESIGN CHOICE, notes/assumptions/5.md). -/

namespace Sys2Proof.Machine

open Sys2Proof

/-- One full-cycle-step. -/
def step (s : State) : Host.Outcome State Fault Refusal := fullCycleStep s

/-- The state with an opcode-table word stored where `step` fetches next. -/
def State.withFetchWord (s : State) (nbits w : Nat) : State := placeInstr s (tableWord nbits w)

end Sys2Proof.Machine
end

