-- ==== Sys2Proof/Machine/Assembler.lean ====
section
/-! DEFINITION. The assembler spelling of spec/30_encoding.md R89 and the encoding of a line from it
(R90), on lines whose operands are already told apart. It is no part of the core. -/

namespace Sys2Proof.Machine

open Sys2Proof

/-- An operand as R89 spells it: `R<n>`, a number, or a label. -/
inductive AsmOperand where
  | reg (index : Nat)
  | num (value : Nat)
  | label (name : String)
  deriving DecidableEq, Repr

/-- A line: one instruction, which a label may name. -/
structure AsmLine where
  label : Option String
  mnemonic : Mnemonic
  operands : List AsmOperand
  deriving DecidableEq, Repr

/-- The program address of the instruction a label names, the first line standing at `a`. -/
def labelAddress (name : String) : Nat → List AsmLine → Option Nat
  | _, [] => none
  | a, l :: ls => if l.label = some name then some a else labelAddress name (a + 1) ls

/-- A register operand: an index 0 to 31 (R89). -/
def asmReg : AsmOperand → Option Byte
  | .reg n => if n < 32 then some (BitVec.ofNat 8 n) else none
  | .num _ => none
  | .label _ => none

/-- A byte operand: a number 0 to 255, or a label's program address (R82, R89). -/
def asmByte (source : List AsmLine) : AsmOperand → Option Byte
  | .reg _ => none
  | .num n => if n < 256 then some (BitVec.ofNat 8 n) else none
  | .label l =>
    match labelAddress l 0 source with
    | some n => if n < 256 then some (BitVec.ofNat 8 n) else none
    | none => none

/-- The instruction of a line; the operands stand in field order (R89). -/
def asmInstr (source : List AsmLine) (l : AsmLine) : Option Instr :=
  match l.mnemonic, l.operands with
  | .nop, [] => some .nop
  | .ldi, [r, k] => do return .ldi (← asmReg r) (← asmByte source k)
  | .mov, [d, r] => do return .mov (← asmReg d) (← asmReg r)
  | .out, [a, r] => do return .out (← asmByte source a) (← asmReg r)
  | .inp, [r, a] => do return .inp (← asmReg r) (← asmByte source a)
  | .sts, [a, r] => do return .sts (← asmByte source a) (← asmReg r)
  | .lds, [r, a] => do return .lds (← asmReg r) (← asmByte source a)
  | .jmp, [a] => do return .jmp (← asmByte source a)
  | .call, [a] => do return .call (← asmByte source a)
  | .ret, [] => some .ret
  | .push, [r] => do return .push (← asmReg r)
  | .pop, [r] => do return .pop (← asmReg r)
  | _, _ => none

/-- The words of a source, line by line (R90). -/
def assemble (source : List AsmLine) : Option (List Word24) :=
  source.mapM fun l => (asmInstr source l).map encode

/-- An operand as R89 writes it, a number in decimal. -/
def operandText : AsmOperand → String
  | .reg n => "R" ++ toString n
  | .num n => toString n
  | .label l => l

/-- The operands with a comma and a space between. -/
def operandsText : List AsmOperand → String
  | [] => ""
  | [o] => operandText o
  | o :: os => operandText o ++ ", " ++ operandsText os

/-- A line's instruction as R89 writes it: the mnemonic in capitals, one space, the operands. -/
def lineText (l : AsmLine) : String :=
  match l.operands with
  | [] => l.mnemonic.name
  | os => l.mnemonic.name ++ " " ++ operandsText os

/-- The operands of an instruction in field order, told apart as R82 and R83 do. -/
def asmOperands : Instr → List AsmOperand
  | .nop => []
  | .ldi r k => [.reg r.toNat, .num k.toNat]
  | .mov d r => [.reg d.toNat, .reg r.toNat]
  | .out a r => [.num a.toNat, .reg r.toNat]
  | .inp r a => [.reg r.toNat, .num a.toNat]
  | .sts a r => [.num a.toNat, .reg r.toNat]
  | .lds r a => [.reg r.toNat, .num a.toNat]
  | .jmp a => [.num a.toNat]
  | .call a => [.num a.toNat]
  | .ret => []
  | .push r => [.reg r.toNat]
  | .pop r => [.reg r.toNat]
  | .unrecognized _ => []

/-- The line that spells an instruction. An unrecognized opcode has no mnemonic, and a register index
of 32 or more no spelling (R89), so there is no line for one. -/
def lineOf (i : Instr) : Option AsmLine :=
  if RegOperandsInRange i then
    i.mnemonic.map fun m => { label := none, mnemonic := m, operands := asmOperands i }
  else none

/-- An instruction's text, where it has one (R89). -/
def asmText (i : Instr) : Option String := (lineOf i).map lineText

end Sys2Proof.Machine
end

