-- ==== Sys2Proof/Machine/Flags.lean ====
section
/-! DEFINITION. The status register's six flags (spec/10_state.md R29). No instruction computes, reads
or writes a flag (R28), so there is no flag computation; the flags are read by the snapshot only. -/

namespace Sys2Proof.Machine

open Sys2Proof

/-- interrupt, sign, negative, zero, overflow, carry. -/
inductive Flag where
  | I | S | N | Z | V | C
  deriving DecidableEq, Repr

/-- The bit of `sr` a flag stands at (spec/10_state.md R29, decision D10). -/
def Flag.bit : Flag → Nat
  | .I => 5
  | .S => 4
  | .N => 3
  | .Z => 2
  | .V => 1
  | .C => 0

/-- A flag of the status register. -/
def flagOf (sr : StatusWord) (f : Flag) : Bool := sr.getLsbD f.bit

end Sys2Proof.Machine
end

