-- ==== Sys2Proof/Machine/Snapshot.lean ====
section
/-! DEFINITION. The diagnostic snapshot (spec/60_exceptions.md R211): a read-only view of a state. -/

namespace Sys2Proof.Machine

open Sys2Proof

/-- The items of spec/60_exceptions.md R211, in its order. -/
structure Snapshot where
  subroutine : String
  mnemonic : String
  stateName : String
  pc : Byte
  depth : Nat
  top : Byte
  ir : Word24
  sr : StatusWord
  namedRegs : List (Fin 32 × Byte)
  namedIo : List (DataAddr × Byte)
  deriving DecidableEq, Repr

/-- The sentinel for an address outside all ranges (spec/20_memory.md R53). -/
def unknownSubroutine : String := "Unknown"

/-- The label of the range an address lies in (spec/20_memory.md R53). The ranges do not overlap; of
ranges that did, the first listed would answer. -/
def subroutineName (ranges : List Subroutine) (a : Byte) : String :=
  match ranges.find? fun r => decide (r.first.toNat ≤ a.toNat) && decide (a.toNat ≤ r.last.toNat) with
  | some r => r.label
  | none => unknownSubroutine

/-- The mnemonic of an opcode; for an unrecognized one the label is a free value (U10). -/
def mnemonicLabel (opc : Byte) : String :=
  match (decodeFields opc 0 0).mnemonic with
  | some m => m.name
  | none => Config.freeMnemonic opc

/-- The name of the FSM state; R211 names the three valid ones. -/
def stateLabel : FsmState → String
  | .fetch => "FETCH"
  | .decode => "DECODE"
  | .execute => "EXECUTE"
  | .invalid => Config.freeStateName

/-- The I/O locations shown: the three named I/O registers and the machine's further ones. -/
def shownIo (c : Config) : List Byte := c.dirAddr :: c.outAddr :: c.inAddr :: c.namedIo

/-- The snapshot accessor (spec/60_exceptions.md R211). It answers a view and no state: reading it is
not a transition. -/
def snapshot (s : State) : Snapshot where
  subroutine := subroutineName s.cfg.image.subroutines s.mar
  mnemonic := mnemonicLabel s.opc
  stateName := stateLabel s.state
  pc := s.pc
  depth := stackDepth s
  top := stackTop s
  ir := s.ir
  sr := s.sr
  namedRegs := s.cfg.namedRegs.map fun i => (i, s.reg i)
  namedIo := (shownIo s.cfg).map fun a => (a.setWidth 9, memRead s (a.setWidth 9))

end Sys2Proof.Machine
end

