-- ==== Sys2Proof/Machine/Interface.lean ====
section
/-! DEFINITION. The host's side of the core: its operations (spec/40_fsm_cycle.md R108), the boot order
and the time before the first reset (spec/70_reset_and_hazards.md R223, R224). -/

namespace Sys2Proof.Machine

open Sys2Proof

/-- The requests that drive the core (spec/40_fsm_cycle.md R108, R109). The snapshot is no request: it
is read without a transition. -/
inductive HostRequest where
  | reset
  | singleStep
  | fullCycleStep
  deriving DecidableEq, Repr

/-- What a request does to a machine that has been reset (spec/40_fsm_cycle.md R108;
spec/70_reset_and_hazards.md R221). -/
def serve (r : HostRequest) (s : State) : Host.Outcome State Fault Refusal :=
  match r with
  | .reset => .next (fullReset s)
  | .singleStep => singleStep s
  | .fullCycleStep => fullCycleStep s

/-- The state after the startup `reset()` of a machine with given arguments
(spec/70_reset_and_hazards.md R222). -/
def bootState (c : Config) : State := fullReset { State.reset with cfg := c, draws := 0 }

/-- A machine as its host has it: not yet reset, of which the spec gives no state, or running. -/
inductive Session where
  | unreset (cfg : Config)
  | running (s : State)
  deriving DecidableEq, Repr

/-- A running machine after an outcome. -/
def sessionOf : Host.Outcome State Fault Refusal → Host.Outcome Session Fault Refusal
  | .next s => .next (.running s)
  | .fault f => .fault f
  | .refused r => .refused r

/-- A host request at any time. Before the first reset only `reset()` is served; a step is refused
(spec/93_implementation_defined.md U14, spec/90_conflicts.md C9). -/
def serveSession (r : HostRequest) : Session → Host.Outcome Session Fault Refusal
  | .running s => sessionOf (serve r s)
  | .unreset c =>
    match r with
    | .reset => .next (.running (bootState c))
    | .singleStep => .refused .stepBeforeReset
    | .fullCycleStep => .refused .stepBeforeReset

/-- What can be wrong with a serialised program image. -/
inductive LoadError where
  | truncated (leftOver : List Byte)
  | tooLong (words : Nat)
  deriving DecidableEq, Repr

/-- Words by address from an address on, in canonical form. -/
def placeWords : Nat → List Word24 → ProgramMemory
  | _, [] => []
  | a, w :: ws => if w = 0 then placeWords (a + 1) ws else (a, w) :: placeWords (a + 1) ws

/-- The one-time bulk load before boot (spec/20_memory.md R52, spec/70_reset_and_hazards.md R224): the
arguments of a machine whose PROGRAM_IMAGE is the given words, from address 0 on. -/
def loadImage (c : Config) (ws : List Word24) (labels : List Subroutine) : Except LoadError Config :=
  if ws.length ≤ c.pmSize then
    .ok { c with image := { words := placeWords 0 ws, subroutines := labels } }
  else .error (.tooLong ws.length)

/-- The bulk load of an image serialised as bytes, the opcode byte first (decision D17). -/
def loadBytes (c : Config) (bytes : List Byte) (labels : List Subroutine) : Except LoadError Config :=
  match wordsOfBytes bytes with
  | .ok ws => loadImage c ws labels
  | .error (.truncated l) => .error (.truncated l)

end Sys2Proof.Machine
end

