-- ==== Sys2Proof/Machine/Ports.lean ====
section
/-! DEFINITION. The transaction-level ports of spec/40_fsm_cycle.md R109: the collaborator accesses of
one transition (spec/20_memory.md R68) and of one served request, with the data that go out and come in,
and what the outcome port shows of a request. The snapshot port is Machine/Snapshot.lean's. -/

namespace Sys2Proof.Machine

open Sys2Proof

/-- One transaction on a collaborator's ports (spec/40_fsm_cycle.md R109). -/
inductive PortAccess where
  /-- `pm_addr`, answered on `pm_rdata`. -/
  | pmRead (addr : Byte) (rdata : Word24)
  /-- `dm_addr` with `dm_we` 0, answered on `dm_rdata`. -/
  | dmRead (addr : DataAddr) (rdata : Byte)
  /-- `dm_addr` with `dm_we` 1 and `dm_wdata`. -/
  | dmWrite (addr : DataAddr) (wdata : Byte)
  /-- `stk_push` with `stk_wdata`. -/
  | stkPush (wdata : Byte)
  /-- `stk_pop`, answered on `stk_rdata`. -/
  | stkPop (rdata : Byte)
  | pmReload
  | dmClear
  | stkClear
  deriving DecidableEq, Repr

/-- The three requests of a full reset (spec/70_reset_and_hazards.md R220). -/
def resetAccesses : List PortAccess := [.pmReload, .dmClear, .stkClear]

/-- What is asked of a collaborator once a check has passed; a raised model fault asks nothing
(spec/60_exceptions.md R204). -/
def accessIf {α : Type} (e : Except Fault α) (k : α → List PortAccess) : List PortAccess :=
  match e with
  | .ok a => k a
  | .error _ => []

/-- The accesses of an instruction's rule (spec/20_memory.md R64, R68). -/
def execAccesses (i : Instr) (s : State) : List PortAccess :=
  match i with
  | .nop => []
  | .ldi _ _ => []
  | .mov _ _ => []
  | .out a r => accessIf (regIndex s r) fun n => [.dmWrite (ioAddr a) (s.reg n)]
  | .inp r a => accessIf (regIndex s r) fun _ => [.dmRead (ioAddr a) (memRead s (ioAddr a))]
  | .sts a r => accessIf (regIndex s r) fun n => [.dmWrite (extAddr a) (s.reg n)]
  | .lds r a => accessIf (regIndex s r) fun _ => [.dmRead (extAddr a) (memRead s (extAddr a))]
  | .jmp _ => []
  | .call _ => accessIf (push s s.pc) fun _ => [.stkPush s.pc]
  | .ret => accessIf (pop s) fun p => [.stkPop p.1]
  | .push r =>
    accessIf (regIndex s r) fun n => accessIf (push s (s.reg n)) fun _ => [.stkPush (s.reg n)]
  | .pop r => accessIf (regIndex s r) fun _ => accessIf (pop s) fun p => [.stkPop p.1]
  | .unrecognized _ => resetAccesses

/-- The accesses of the transition a single-step performs. -/
def accesses (s : State) : List PortAccess :=
  match s.state with
  | .fetch => [.pmRead s.pc (pmRead s s.pc)]
  | .decode => []
  | .execute => execAccesses (decodedInstr s) s
  | .invalid => resetAccesses

/-- The states in which the transitions of the loop of spec/40_fsm_cycle.md R105 start, at most `n`: up
to one that starts in EXECUTE, or to one that raises a model fault. -/
def cycleStarts : Nat → State → List State
  | 0, _ => []
  | n + 1, s =>
    s :: match singleStep s with
      | .next t => if s.state = .execute then [] else cycleStarts n t
      | .fault _ => []
      | .refused _ => []

/-- The states in which the FSM transitions of a served request start. The host's `reset()` is no FSM
transition (spec/40_fsm_cycle.md R104, spec/70_reset_and_hazards.md R221). -/
def requestStarts (r : HostRequest) (s : State) : List State :=
  match r with
  | .reset => []
  | .singleStep => [s]
  | .fullCycleStep => cycleStarts 4 s

/-- The transactions of a served request, in order: `reset_req` drives the three reset requests
(spec/70_reset_and_hazards.md R220, R221), `step_req` and `cycle_req` those of their transitions. -/
def requestAccesses (r : HostRequest) (s : State) : List PortAccess :=
  match r with
  | .reset => resetAccesses
  | .singleStep => accesses s
  | .fullCycleStep => (requestStarts .fullCycleStep s).flatMap accesses

/-- What the outcome port shows while a request is served: the tag of each transition
(spec/40_fsm_cycle.md R107, R109). R107 has no cause for the host's reset, which shows none. -/
def requestTags (r : HostRequest) (s : State) : List Tagged := (requestStarts r s).map taggedStep

/-- The transactions of a request made at any time: the startup `reset()` drives the same three, a
refused step none. -/
def sessionAccesses (r : HostRequest) : Session → List PortAccess
  | .running s => requestAccesses r s
  | .unreset _ =>
    match r with
    | .reset => resetAccesses
    | .singleStep => []
    | .fullCycleStep => []

/-- The three stores as the collaborators hold them. -/
structure Stores where
  pm : ProgramMemory
  dm : Memory
  stack : List Byte
  deriving DecidableEq, Repr

/-- The collaborators' part of a state. -/
def storesOf (s : State) : Stores := { pm := s.pm, dm := s.dm, stack := s.stack }

/-- What an access does to the stores: the contracts of spec/20_memory.md. -/
def serveAccess (c : Config) (st : Stores) : PortAccess → Stores
  | .pmRead _ _ => st
  | .dmRead _ _ => st
  | .dmWrite a v => if a.toNat < c.dmSize then { st with dm := Store.write st.dm a.toNat v } else st
  | .stkPush v => { st with stack := st.stack ++ [v] }
  | .stkPop _ => { st with stack := st.stack.dropLast }
  | .pmReload => { st with pm := c.image.words }
  | .dmClear => { st with dm := [] }
  | .stkClear => { st with stack := [] }

end Sys2Proof.Machine
end

