-- ==== Sys2Proof/Machine/Conditions.lean ====
section
/-! DEFINITION. The complete list of bad conditions (spec/60_exceptions.md R205) and which of them the
next transition meets. The list is observational: the core records nothing (R203). -/

namespace Sys2Proof.Machine

open Sys2Proof

/-- The rows of spec/60_exceptions.md R205. -/
inductive Condition where
  | unrecognizedOpcode
  | unrecognizedState
  | outOfRangeAddress
  | registerIndex
  | stackFull
  | stackEmpty
  deriving DecidableEq, Repr

/-- The codes of spec/60_exceptions.md R205. -/
def Condition.code : Condition → Nat
  | .unrecognizedOpcode => 1
  | .unrecognizedState => 2
  | .outOfRangeAddress => 3
  | .registerIndex => 4
  | .stackFull => 5
  | .stackEmpty => 6

/-- The condition a reset cause stands for. -/
def ResetCause.condition : ResetCause → Condition
  | .unrecognizedOpcode _ _ => .unrecognizedOpcode
  | .unrecognizedState => .unrecognizedState

/-- The condition a model fault stands for. -/
def Fault.condition : Fault → Condition
  | .registerIndexOutOfRange _ => .registerIndex
  | .stackOverflow _ => .stackFull
  | .stackUnderflow => .stackEmpty

/-- A collaborator access to an address its store does not have (spec/60_exceptions.md R202). -/
def outOfRange (c : Config) : PortAccess → Bool
  | .pmRead a _ => decide (c.pmSize ≤ a.toNat)
  | .dmRead a _ => decide (c.dmSize ≤ a.toNat)
  | .dmWrite a _ => decide (c.dmSize ≤ a.toNat)
  | .stkPush _ => false
  | .stkPop _ => false
  | .pmReload => false
  | .dmClear => false
  | .stkClear => false

/-- The one condition the next transition meets, if it meets one (spec/60_exceptions.md R205, R206). -/
def conditionOf (s : State) : Option Condition :=
  match resetCause s, singleStep s with
  | some c, _ => some c.condition
  | none, .fault f => some f.condition
  | none, _ => if (accesses s).any (outOfRange s.cfg) then some .outOfRangeAddress else none

end Sys2Proof.Machine
end

