-- ==== Sys2Proof/Safety.lean ====
section
/-! DEFINITION. The terms claims are stated in: what a register operand names, what a transition leaves
unchanged, when an instruction runs without a model fault, and the invariant of the machine. -/

namespace Sys2Proof.Machine

open Sys2Proof

/-- A register operand `i` names register `d` (spec/30_encoding.md R86): an index below 32 names its
own register; a larger one names `i[4:0]` under `mask5` and nothing under `fault`. -/
def RegNames (s : State) (i : Byte) (d : Fin 32) : Prop :=
  (i.toNat < 32 ∧ d.val = i.toNat) ∨
    (32 ≤ i.toNat ∧ s.cfg.regIndexPolicy = .mask5 ∧ d.val = i.toNat % 32)

/-- A register operand is outside the register file and REG_INDEX_POLICY = fault. -/
def RegBad (s : State) (i : Byte) : Prop := 32 ≤ i.toNat ∧ s.cfg.regIndexPolicy = .fault

/-- The stack has room for a push (spec/20_memory.md R60). -/
def HasRoom (s : State) : Prop := s.cfg.stackCapacity ≠ some s.stack.length

/-- What a pop answers (spec/20_memory.md R61): the most recent byte of a stack that holds one, or the
`w` of STACK_UNDERFLOW = value w, and the sequence of bytes it leaves. -/
def PopAnswers (s : State) (v : Byte) (rest : List Byte) : Prop :=
  s.stack = rest ++ [v] ∨ (s.stack = [] ∧ s.cfg.stackUnderflow = .value v ∧ rest = [])

/-- A pop raises StackUnderflow (spec/20_memory.md R61). -/
def PopBad (s : State) : Prop := s.stack = [] ∧ s.cfg.stackUnderflow = .fault

/-- Every general register is unchanged. -/
def SameRegs (s t : State) : Prop := ∀ i : Fin 32, t.reg i = s.reg i

/-- Every general register but `d` is unchanged. -/
def SameRegsBut (d : Fin 32) (s t : State) : Prop := ∀ i : Fin 32, i ≠ d → t.reg i = s.reg i

/-- Every byte of data memory reads as before. -/
def SameData (s t : State) : Prop := ∀ a : DataAddr, memRead t a = memRead s a

/-- Every byte of data memory but the one at `b` reads as before. -/
def SameDataBut (b : DataAddr) (s t : State) : Prop := ∀ a : DataAddr, a ≠ b → memRead t a = memRead s a

/-- The stack and its diagnostic register are unchanged. -/
def SameStack (s t : State) : Prop := t.stack = s.stack ∧ t.lastPushed = s.lastPushed

/-- What no recognized instruction's rule touches: the status register with every flag, IR, MAR, the
decoded fields, the FSM state, program memory, the model arguments and the count of draws. -/
def SameRest (s t : State) : Prop :=
  t.sr = s.sr ∧ t.ir = s.ir ∧ t.mar = s.mar ∧ t.opc = s.opc ∧ t.op1 = s.op1 ∧ t.op2 = s.op2 ∧
    t.state = s.state ∧ t.pm = s.pm ∧ t.cfg = s.cfg ∧ t.draws = s.draws

/-- The state after a full reset of `s`, all but `lastPushed`, which is unspecified, and the model's
count of draws (spec/70_reset_and_hazards.md R220, R222). -/
def ResetOf (s t : State) : Prop :=
  (∀ i : Fin 32, t.reg i = 0) ∧ t.pc = 0 ∧ t.ir = 0 ∧ t.mar = 0 ∧ t.opc = 0 ∧ t.op1 = 0 ∧ t.op2 = 0 ∧
    t.sr = 0 ∧ t.state = .fetch ∧ t.pm = s.cfg.image.words ∧ (∀ a : DataAddr, memRead t a = 0) ∧
    t.dm = [] ∧ t.stack = [] ∧ stackDepth t = 0 ∧ t.cfg = s.cfg

/-- The register operands of `i` all name a register. -/
def RegsOk (i : Instr) (s : State) : Prop := ∀ r ∈ i.regOperands, ¬ RegBad s r

/-- `i` runs in `s` without a model fault, said of the operands and the stack alone
(spec/60_exceptions.md R204). -/
def RunsSafely (i : Instr) (s : State) : Prop :=
  RegsOk i s ∧
    match i with
    | .nop => True
    | .ldi _ _ => True
    | .mov _ _ => True
    | .out _ _ => True
    | .inp _ _ => True
    | .sts _ _ => True
    | .lds _ _ => True
    | .jmp _ => True
    | .call _ => HasRoom s
    | .ret => ¬ PopBad s
    | .push _ => HasRoom s
    | .pop _ => ¬ PopBad s
    | .unrecognized _ => True

/-- Several pushes in order (spec/20_memory.md R60). -/
def pushAll (s : State) : List Byte → Except Fault State
  | [] => .ok s
  | v :: vs =>
    match push s v with
    | .ok t => pushAll t vs
    | .error f => .error f

/-- `n` pops: the bytes in the order they come, and the state after them (spec/20_memory.md R61). -/
def popAll (s : State) : Nat → Except Fault (List Byte × State)
  | 0 => .ok ([], s)
  | n + 1 =>
    match pop s with
    | .ok (v, t) =>
      match popAll t n with
      | .ok (vs, u) => .ok (v :: vs, u)
      | .error f => .error f
    | .error f => .error f

/-- Several data-memory writes in order (spec/20_memory.md R56). -/
def writeAll (s : State) (ws : List (DataAddr × Byte)) : State :=
  ws.foldl (fun t w => memWrite t w.1 w.2) s

/-- The state in which EXECUTE runs the instruction fetched from a state in FETCH: `pc` is past the
word, and the decoded fields are the word's (spec/40_fsm_cycle.md R100, R101). -/
def inExecute (s : State) : State :=
  { s with
    ir := pmRead s s.pc
    mar := s.pc
    pc := s.pc + 1
    opc := fieldOpcode (pmRead s s.pc)
    op1 := fieldOp1 (pmRead s s.pc)
    op2 := fieldOp2 (pmRead s s.pc)
    state := .execute }

/-- `n` steps of the machine, stopping at the first fault or refusal. -/
def runSteps : Nat → State → Host.Outcome State Fault Refusal
  | 0, s => .next s
  | n + 1, s => andThen (step s) (runSteps n)

/-- A safe step: it ends in a next state. -/
def StepSafe (s : State) : Prop := ∃ t, step s = .next t

/-- What holds in every state a machine reaches from a reset, mid-cycle states among them. -/
structure Inv (s : State) : Prop where
  /-- Data memory keeps its canonical form within DM_SIZE. -/
  dataCanonical : Memory.wf s.cfg.dmSize s.dm = true
  /-- Program memory holds PROGRAM_IMAGE (spec/20_memory.md R52). -/
  programIsImage : s.pm = s.cfg.image.words
  /-- Program memory keeps its canonical form within PM_SIZE (spec/20_memory.md R50). -/
  programCanonical : ProgramMemory.wf s.cfg.pmSize s.pm = true
  /-- The status register is 0 (spec/10_state.md R28). -/
  statusZero : s.sr = 0
  /-- The FSM state is one of the three (spec/10_state.md R30). -/
  stateValid : s.state ≠ .invalid
  /-- The stack holds STACK_CAPACITY entries at most (spec/20_memory.md R64). -/
  stackBounded : ∀ c, s.cfg.stackCapacity = some c → s.stack.length ≤ c
  /-- After FETCH, `pc` is the address after `mar` and `ir` the word at `mar` (spec/10_state.md R24-R26). -/
  fetched : s.state ≠ .fetch → s.pc = s.mar + 1 ∧ s.ir = pmRead s s.mar
  /-- After DECODE, the decoded fields agree with `ir` (spec/10_state.md R27). -/
  decoded : s.state = .execute → s.opc = fieldOpcode s.ir ∧ s.op1 = fieldOp1 s.ir ∧ s.op2 = fieldOp2 s.ir

end Sys2Proof.Machine
end

