-- ==== Sys2Proof/Certificates/Slice0/Obligations.lean ====
section
/-! DEFINITION. The statements for the provers. A statement about an instruction gives its word's
meaning, its result and frame where it runs, and where it stops; the words it is said in are
Sys2Proof/Safety.lean's. Where a statement rests on a decision of spec/92_eei_decisions.md (D<n>), which
is the spec's own choice and not the source's, its docstring names it. -/

open Sys2Proof Sys2Proof.Machine

/-! ## Encoding -/

/-- The worked words of spec/95_test_vectors.md §2.7 decode to the instructions they stand for and are
those instructions' encodings; the word of spec/95_test_vectors.md X1 is unrecognized. The opcode values
are decision D1 (notes/assumptions/3.md). -/
def Obligations.WorkedWordsDecodeAndEncode : Prop :=
  (decode 0x000000 = .nop ∧ encode .nop = 0x000000) ∧
  (decode 0x011004 = .ldi 16 0x04 ∧ encode (.ldi 16 0x04) = 0x011004) ∧
  (decode 0x020703 = .mov 7 3 ∧ encode (.mov 7 3) = 0x020703) ∧
  (decode 0x032010 = .out 0x20 16 ∧ encode (.out 0x20 16) = 0x032010) ∧
  (decode 0x040220 = .inp 2 0x20 ∧ encode (.inp 2 0x20) = 0x040220) ∧
  (decode 0x050503 = .sts 0x05 3 ∧ encode (.sts 0x05 3) = 0x050503) ∧
  (decode 0x060905 = .lds 9 0x05 ∧ encode (.lds 9 0x05) = 0x060905) ∧
  (decode 0x070A00 = .jmp 0x0A ∧ encode (.jmp 0x0A) = 0x070A00) ∧
  (decode 0x082000 = .call 0x20 ∧ encode (.call 0x20) = 0x082000) ∧
  (decode 0x090000 = .ret ∧ encode .ret = 0x090000) ∧
  (decode 0x0A1400 = .push 20 ∧ encode (.push 20) = 0x0A1400) ∧
  (decode 0x0B0500 = .pop 5 ∧ encode (.pop 5) = 0x0B0500) ∧
  decode 0x0C0000 = .unrecognized 0x0C

/-- Decoding the word of a well-formed instruction gives the instruction back, every operand at every
value (spec/30_encoding.md R81, R83, R90). The opcode values are decision D1. -/
def Obligations.DecodeOfEncodeIsIdentity : Prop :=
  ∀ i : Instr, WellFormed i = true → decode (encode i) = i

/-- Every word decodes to a well-formed instruction, and encoding that gives the word back with the
ignored operand fields 0 (spec/30_encoding.md R87, R90). Ignored fields are decision D14. -/
def Obligations.EncodeOfDecodeClearsIgnoredFields : Prop :=
  ∀ w : Word24, WellFormed (decode w) = true ∧ encode (decode w) = w &&& (decode w).usedBits

/-- The opcode field alone selects the instruction, with the operands where the table places them; the
all-zero word is a NOP; every opcode not in the table is unrecognized (spec/30_encoding.md R83, R84).
The opcode values are decision D1. -/
def Obligations.OpcodeFieldSelectsInstruction : Prop :=
  (∀ a b : Byte,
    decode (joinFields 0x00 a b) = .nop ∧
    decode (joinFields 0x01 a b) = .ldi a b ∧
    decode (joinFields 0x02 a b) = .mov a b ∧
    decode (joinFields 0x03 a b) = .out a b ∧
    decode (joinFields 0x04 a b) = .inp a b ∧
    decode (joinFields 0x05 a b) = .sts a b ∧
    decode (joinFields 0x06 a b) = .lds a b ∧
    decode (joinFields 0x07 a b) = .jmp a ∧
    decode (joinFields 0x08 a b) = .call a ∧
    decode (joinFields 0x09 a b) = .ret ∧
    decode (joinFields 0x0A a b) = .push a ∧
    decode (joinFields 0x0B a b) = .pop a) ∧
  (∀ o a b : Byte, 0x0C ≤ o.toNat → decode (joinFields o a b) = .unrecognized o) ∧
  (∀ w : Word24, ∃ o a b : Byte, w = joinFields o a b) ∧
  decode 0x000000 = .nop

/-- A serialised program image, the opcode byte first, is read back as the words it was written from;
a machine booted with those words reads each at its address. Byte order is the spec's decision D17. That
it reads 0x000000 after the last word is the model's choice (spec/95_test_vectors.md §3;
notes/assumptions/7.md). -/
def Obligations.LoadedImageIsWhatIsFetched : Prop :=
  ∀ (c c' : Config) (ws : List Word24) (labels : List Subroutine),
    loadBytes c (ws.flatMap bytesOfWord) labels = .ok c' →
      (∀ a : Byte, pmRead (bootState c') a = (ws[a.toNat]?).getD 0) ∧
      c'.image.subroutines = labels ∧ ws.length ≤ c.pmSize ∧
      ProgramMemory.wf c'.pmSize c'.image.words = true

/-- Every instruction with a mnemonic and register operands in range has a line, its mnemonic and its
operands told apart, and that line assembles to the instruction's word (spec/30_encoding.md R89, R90).
The operand forms are decision D21, lines with operands told apart the model's (notes/assumptions/19.md);
a line's text is AssemblerTextSpellsInstruction's. -/
def Obligations.AssembledLineIsEncoding : Prop :=
  ∀ i : Instr, i.mnemonic ≠ none → RegOperandsInRange i = true →
    ∃ l, lineOf i = some l ∧ assemble [l] = some [encode i]

/-- The text of an instruction (spec/30_encoding.md R89): the mnemonic in capitals, one space, the
operands in field order with a comma and a space between, a register as `R` and its index; no text where
a register index is 32 or more or the opcode has no mnemonic. The spelling is decision D21; that numbers
are printed in decimal, and not with 0x, is the model's (notes/assumptions/19.md). -/
def Obligations.AssemblerTextSpellsInstruction : Prop :=
  asmText .nop = some "NOP" ∧ asmText .ret = some "RET" ∧
  (∀ a : Byte, asmText (.jmp a) = some ("JMP " ++ toString a.toNat) ∧
    asmText (.call a) = some ("CALL " ++ toString a.toNat)) ∧
  (∀ r a : Byte, r.toNat < 32 →
    asmText (.ldi r a) = some ("LDI R" ++ toString r.toNat ++ ", " ++ toString a.toNat) ∧
    asmText (.out a r) = some ("OUT " ++ toString a.toNat ++ ", R" ++ toString r.toNat) ∧
    asmText (.inp r a) = some ("IN R" ++ toString r.toNat ++ ", " ++ toString a.toNat) ∧
    asmText (.sts a r) = some ("STS " ++ toString a.toNat ++ ", R" ++ toString r.toNat) ∧
    asmText (.lds r a) = some ("LDS R" ++ toString r.toNat ++ ", " ++ toString a.toNat) ∧
    asmText (.push r) = some ("PUSH R" ++ toString r.toNat) ∧
    asmText (.pop r) = some ("POP R" ++ toString r.toNat)) ∧
  (∀ d r : Byte, d.toNat < 32 → r.toNat < 32 →
    asmText (.mov d r) = some ("MOV R" ++ toString d.toNat ++ ", R" ++ toString r.toNat)) ∧
  (∀ i : Instr, (∃ r ∈ i.regOperands, 32 ≤ r.toNat) ∨ i.mnemonic = none → asmText i = none)

/-! ## The transitions -/

/-- FETCH (spec/40_fsm_cycle.md R100): IR is the word at PC, MAR the PC before, PC one more modulo 256,
the state DECODE; nothing else changes. The wrap is decision D2. -/
def Obligations.FetchReadsAtPcAndIncrements : Prop :=
  ∀ s : State, s.state = .fetch →
    ∃ t, singleStep s = .next t ∧ t.ir = pmRead s s.pc ∧ t.mar = s.pc ∧
      t.pc.toNat = (s.pc.toNat + 1) % 256 ∧ t.state = .decode ∧
      SameRegs s t ∧ SameData s t ∧ SameStack s t ∧ t.opc = s.opc ∧ t.op1 = s.op1 ∧ t.op2 = s.op2 ∧
      t.sr = s.sr ∧ t.dm = s.dm ∧ t.pm = s.pm ∧ t.cfg = s.cfg ∧ t.draws = s.draws

/-- DECODE (spec/40_fsm_cycle.md R101, spec/30_encoding.md R81): the three fields of IR as unsigned
numbers, the state EXECUTE; nothing else changes, and no opcode is refused. -/
def Obligations.DecodeExtractsFields : Prop :=
  ∀ s : State, s.state = .decode →
    ∃ t, singleStep s = .next t ∧
      t.opc.toNat = s.ir.toNat / 65536 ∧ t.op1.toNat = s.ir.toNat / 256 % 256 ∧
      t.op2.toNat = s.ir.toNat % 256 ∧ t.state = .execute ∧
      SameRegs s t ∧ SameData s t ∧ SameStack s t ∧ t.pc = s.pc ∧ t.ir = s.ir ∧ t.mar = s.mar ∧
      t.sr = s.sr ∧ t.dm = s.dm ∧ t.pm = s.pm ∧ t.cfg = s.cfg ∧ t.draws = s.draws

/-- EXECUTE (spec/40_fsm_cycle.md R102): the rule of the decoded opcode, then FETCH; a raised model
fault is the outcome; an opcode outside the twelve performs the full reset, which leaves FETCH. -/
def Obligations.ExecuteDispatchesOnOpcode : Prop :=
  ∀ s : State, s.state = .execute →
    (∀ m : Mnemonic, s.opc = m.opcode →
      (decodeFields s.opc s.op1 s.op2).mnemonic = some m ∧
      (∀ t, exec (decodeFields s.opc s.op1 s.op2) s = .next t →
        singleStep s = .next (t.setState .fetch)) ∧
      (∀ f, exec (decodeFields s.opc s.op1 s.op2) s = .fault f → singleStep s = .fault f)) ∧
    ((∀ m : Mnemonic, s.opc ≠ m.opcode) → ∃ t, singleStep s = .next t ∧ ResetOf s t)

/-- The invalid FSM state performs the full reset, whatever else the state holds, and no transition
leaves the FSM in it (spec/40_fsm_cycle.md R103, spec/60_exceptions.md R201). -/
def Obligations.InvalidStateResets : Prop :=
  (∀ s : State, s.state = .invalid → ∃ t, singleStep s = .next t ∧ ResetOf s t) ∧
  (∀ s t : State, singleStep s = .next t → t.state ≠ .invalid)

/-- full-cycle-step performs single-steps until one that started in EXECUTE (spec/40_fsm_cycle.md R105):
three from FETCH, two from DECODE, one from EXECUTE, four from the invalid state; when it ends in a next
state the FSM is in FETCH. A call made mid-cycle or in the invalid state is decision D12. -/
def Obligations.FullCycleEndsAfterExecute : Prop :=
  ∀ s : State,
    (s.state = .fetch → step s = singleSteps 3 s) ∧
    (s.state = .decode → step s = singleSteps 2 s) ∧
    (s.state = .execute → step s = singleSteps 1 s) ∧
    (s.state = .invalid → step s = singleSteps 4 s) ∧
    (∀ t, step s = .next t → t.state = .fetch)

/-- From FETCH every step is exactly one FETCH, one DECODE and one EXECUTE, whatever the opcode, and
the next instruction is fetched only after it (spec/40_fsm_cycle.md R106). -/
def Obligations.EveryInstructionTakesThreeTransitions : Prop :=
  ∀ s : State, s.state = .fetch →
    ∃ s1 s2, singleStep s = .next s1 ∧ s1.state = .decode ∧ singleStep s1 = .next s2 ∧
      s2.state = .execute ∧ step s = singleStep s2 ∧
      (∀ t, singleStep s2 = .next t → t.state = .fetch)

/-- A step from FETCH runs the instruction the word at the program counter decodes to, in the state in
which PC is past the word and the decoded fields are the word's, and returns to FETCH
(spec/40_fsm_cycle.md R100-R102, R105). A step is a full cycle (notes/assumptions/5.md). -/
def Obligations.StepRunsDecodedInstruction : Prop :=
  ∀ (s : State) (i : Instr), s.state = .fetch → decode (pmRead s s.pc) = i →
    (∀ t, exec i (inExecute s) = .next t → step s = .next (t.setState .fetch)) ∧
    (∀ f, exec i (inExecute s) = .fault f → step s = .fault f) ∧
    (∀ r, exec i (inExecute s) = .refused r → step s = .refused r)

/-- The tag of a transition (spec/40_fsm_cycle.md R107) changes no outcome; it is `reset` with its cause
for the two causes of a full reset, and `ok` or `fault` otherwise. The tag is decision D19, the opcode
bound D1. -/
def Obligations.OutcomeTagIsObservational : Prop :=
  ∀ s : State,
    (taggedStep s).untagged = singleStep s ∧
    (s.state = .execute → 0x0C ≤ s.opc.toNat →
      ∃ t, taggedStep s = .reset (.unrecognizedOpcode s.opc s.mar) t ∧ ResetOf s t) ∧
    (s.state = .invalid → ∃ t, taggedStep s = .reset .unrecognizedState t ∧ ResetOf s t) ∧
    (s.state ≠ .invalid → (s.state = .execute → s.opc.toNat < 0x0C) →
      (∃ t, taggedStep s = .ok t) ∨ ∃ f, taggedStep s = .fault f)

/-! ## The instructions: result, frame and faults -/

/-- NOP has no effect, whatever its ignored operands; a whole cycle of it moves PC, MAR, IR and the
decoded fields only (spec/41_register_ops.md R120). The wrap is decision D2. -/
def Obligations.NopHasNoEffect : Prop :=
  (∀ a b : Byte, decode (joinFields 0x00 a b) = .nop) ∧
  (∀ s : State, exec .nop s = .next s) ∧
  (∀ s : State, s.state = .fetch → decode (pmRead s s.pc) = .nop →
    ∃ t, step s = .next t ∧ t.pc.toNat = (s.pc.toNat + 1) % 256 ∧ t.mar = s.pc ∧ t.ir = pmRead s s.pc ∧
      t.opc = 0 ∧ t.op1 = fieldOp1 t.ir ∧ t.op2 = fieldOp2 t.ir ∧ t.state = .fetch ∧ SameRegs s t ∧
      SameData s t ∧ SameStack s t ∧ t.sr = s.sr ∧ t.dm = s.dm ∧ t.pm = s.pm ∧ t.cfg = s.cfg ∧
      t.draws = s.draws)

/-- LDI writes the constant to the named register and changes nothing else; an operand that names no
register stops it (spec/41_register_ops.md R121). The opcode is decision D1, REG_INDEX_POLICY and its
fault D9. -/
def Obligations.LdiLoadsConstant : Prop :=
  ∀ op1 op2 : Byte, decode (joinFields 0x01 op1 op2) = .ldi op1 op2 ∧
    (∀ (s : State) (d : Fin 32), RegNames s op1 d →
      ∃ t, exec (.ldi op1 op2) s = .next t ∧ t.reg d = op2 ∧ SameRegsBut d s t ∧ t.pc = s.pc ∧
        SameData s t ∧ SameStack s t ∧ SameRest s t) ∧
    (∀ s : State, RegBad s op1 → exec (.ldi op1 op2) s = .fault (.registerIndexOutOfRange op1))

/-- MOV copies the source register to the destination and changes nothing else; `op1` is checked before
`op2` (spec/41_register_ops.md R122). The opcode is decision D1, REG_INDEX_POLICY, its fault and the
order of the checks D9. -/
def Obligations.MovCopiesRegister : Prop :=
  ∀ op1 op2 : Byte, decode (joinFields 0x02 op1 op2) = .mov op1 op2 ∧
    (∀ (s : State) (d r : Fin 32), RegNames s op1 d → RegNames s op2 r →
      ∃ t, exec (.mov op1 op2) s = .next t ∧ t.reg d = s.reg r ∧ SameRegsBut d s t ∧
        (d = r → SameRegs s t) ∧ t.pc = s.pc ∧ SameData s t ∧ SameStack s t ∧ SameRest s t) ∧
    (∀ s : State, RegBad s op1 → exec (.mov op1 op2) s = .fault (.registerIndexOutOfRange op1)) ∧
    (∀ s : State, ¬ RegBad s op1 → RegBad s op2 →
      exec (.mov op1 op2) s = .fault (.registerIndexOutOfRange op2))

/-- OUT stores the source register at the I/O-page address and changes nothing else; a store past
DM_SIZE is dropped; an operand that names no register stops it (spec/42_data_memory_ops.md R142). The
canonical form of memory, a premise of the byte's reading back, is the invariant of this file. The
opcode is decision D1, the dropped store D4, REG_INDEX_POLICY and its fault D9. -/
def Obligations.OutStoresToIoPage : Prop :=
  ∀ op1 op2 : Byte, decode (joinFields 0x03 op1 op2) = .out op1 op2 ∧ (ioAddr op1).toNat = op1.toNat ∧
    (∀ (s : State) (r : Fin 32), RegNames s op2 r →
      ∃ t, exec (.out op1 op2) s = .next t ∧
        (Memory.wf s.cfg.dmSize s.dm = true → op1.toNat < s.cfg.dmSize →
          memRead t (ioAddr op1) = s.reg r) ∧
        (s.cfg.dmSize ≤ op1.toNat → SameData s t) ∧ SameDataBut (ioAddr op1) s t ∧ SameRegs s t ∧
        t.pc = s.pc ∧ SameStack s t ∧ SameRest s t) ∧
    (∀ s : State, RegBad s op2 → exec (.out op1 op2) s = .fault (.registerIndexOutOfRange op2))

/-- IN writes the byte at the I/O-page address to the destination register and changes nothing else
(spec/42_data_memory_ops.md R143). The opcode is decision D1, REG_INDEX_POLICY and its fault D9. -/
def Obligations.InLoadsFromIoPage : Prop :=
  ∀ op1 op2 : Byte, decode (joinFields 0x04 op1 op2) = .inp op1 op2 ∧ (ioAddr op2).toNat = op2.toNat ∧
    (∀ (s : State) (d : Fin 32), RegNames s op1 d →
      ∃ t, exec (.inp op1 op2) s = .next t ∧ t.reg d = memRead s (ioAddr op2) ∧ SameRegsBut d s t ∧
        t.pc = s.pc ∧ SameData s t ∧ SameStack s t ∧ SameRest s t) ∧
    (∀ s : State, RegBad s op1 → exec (.inp op1 op2) s = .fault (.registerIndexOutOfRange op1))

/-- STS stores the source register at the operand plus 256 and changes nothing else, the I/O page
included; a store past DM_SIZE is dropped (spec/42_data_memory_ops.md R144). The opcode is decision D1,
the dropped store D4, REG_INDEX_POLICY and its fault D9. -/
def Obligations.StsStoresToExtendedPage : Prop :=
  ∀ op1 op2 : Byte, decode (joinFields 0x05 op1 op2) = .sts op1 op2 ∧
    (extAddr op1).toNat = op1.toNat + 256 ∧
    (∀ (s : State) (r : Fin 32), RegNames s op2 r →
      ∃ t, exec (.sts op1 op2) s = .next t ∧
        (Memory.wf s.cfg.dmSize s.dm = true → op1.toNat + 256 < s.cfg.dmSize →
          memRead t (extAddr op1) = s.reg r) ∧
        (s.cfg.dmSize ≤ op1.toNat + 256 → SameData s t) ∧ SameDataBut (extAddr op1) s t ∧
        (∀ a : Byte, memRead t (ioAddr a) = memRead s (ioAddr a)) ∧ SameRegs s t ∧ t.pc = s.pc ∧
        SameStack s t ∧ SameRest s t) ∧
    (∀ s : State, RegBad s op2 → exec (.sts op1 op2) s = .fault (.registerIndexOutOfRange op2))

/-- LDS writes the byte at the operand plus 256 to the destination register and changes nothing else
(spec/42_data_memory_ops.md R145). The opcode is decision D1, REG_INDEX_POLICY and its fault D9. -/
def Obligations.LdsLoadsFromExtendedPage : Prop :=
  ∀ op1 op2 : Byte, decode (joinFields 0x06 op1 op2) = .lds op1 op2 ∧
    (extAddr op2).toNat = op2.toNat + 256 ∧
    (∀ (s : State) (d : Fin 32), RegNames s op1 d →
      ∃ t, exec (.lds op1 op2) s = .next t ∧ t.reg d = memRead s (extAddr op2) ∧ SameRegsBut d s t ∧
        t.pc = s.pc ∧ SameData s t ∧ SameStack s t ∧ SameRest s t) ∧
    (∀ s : State, RegBad s op1 → exec (.lds op1 op2) s = .fault (.registerIndexOutOfRange op1))

/-- JMP sets PC to its operand and changes nothing else, in every state (spec/43_control_transfer.md
R160). The opcode is decision D1. -/
def Obligations.JmpSetsPc : Prop :=
  ∀ op1 op2 : Byte, decode (joinFields 0x07 op1 op2) = .jmp op1 ∧
    (∀ s : State, ∃ t, exec (.jmp op1) s = .next t ∧ t.pc = op1 ∧ SameRegs s t ∧ SameData s t ∧
      SameStack s t ∧ SameRest s t)

/-- CALL pushes PC, which is the address after the CALL, and jumps; a full stack stops it
(spec/43_control_transfer.md R161). The opcode is decision D1, the wrap D2, STACK_CAPACITY and its fault
D7. -/
def Obligations.CallPushesReturnAddress : Prop :=
  ∀ op1 op2 : Byte, decode (joinFields 0x08 op1 op2) = .call op1 ∧
    (∀ s : State, HasRoom s →
      ∃ t, exec (.call op1) s = .next t ∧ t.stack = s.stack ++ [s.pc] ∧ stackTop t = s.pc ∧
        t.pc = op1 ∧ SameRegs s t ∧ SameData s t ∧ SameRest s t) ∧
    (∀ s : State, ¬ HasRoom s → exec (.call op1) s = .fault (.stackOverflow s.pc)) ∧
    (∀ s t : State, s.state = .fetch → decode (pmRead s s.pc) = .call op1 → step s = .next t →
      (stackTop t).toNat = (s.pc.toNat + 1) % 256)

/-- RET pops PC: the most recent byte of the stack, or the `w` of STACK_UNDERFLOW = value w, the stack
then staying empty; `lastPushed` stays; an empty stack under `fault` stops it
(spec/43_control_transfer.md R162). The opcode is decision D1, STACK_UNDERFLOW and its fault D8. -/
def Obligations.RetPopsPc : Prop :=
  ∀ op1 op2 : Byte, decode (joinFields 0x09 op1 op2) = .ret ∧
    (∀ (s : State) (v : Byte) (rest : List Byte), PopAnswers s v rest →
      ∃ t, exec .ret s = .next t ∧ t.pc = v ∧ t.stack = rest ∧ stackTop t = stackTop s ∧ SameRegs s t ∧
        SameData s t ∧ SameRest s t) ∧
    (∀ s : State, PopBad s → exec .ret s = .fault .stackUnderflow)

/-- PUSH pushes the source register and changes nothing else; the register index is checked before the
stack (spec/44_stack_ops.md R180). The opcode is decision D1, the stack fault D7, the register fault and
the order of the checks D9. -/
def Obligations.PushPushesRegister : Prop :=
  ∀ op1 op2 : Byte, decode (joinFields 0x0A op1 op2) = .push op1 ∧
    (∀ (s : State) (r : Fin 32), RegNames s op1 r → HasRoom s →
      ∃ t, exec (.push op1) s = .next t ∧ t.stack = s.stack ++ [s.reg r] ∧ stackTop t = s.reg r ∧
        t.pc = s.pc ∧ SameRegs s t ∧ SameData s t ∧ SameRest s t) ∧
    (∀ s : State, RegBad s op1 → exec (.push op1) s = .fault (.registerIndexOutOfRange op1)) ∧
    (∀ (s : State) (r : Fin 32), RegNames s op1 r → ¬ HasRoom s →
      exec (.push op1) s = .fault (.stackOverflow (s.reg r)))

/-- POP writes the popped byte to the destination register and changes nothing else; the register index
is checked before the stack; and a POP right after a PUSH gives the pushed register's value
(spec/44_stack_ops.md R181). The opcode is decision D1, the stack policy D8, the register fault and the
order of the checks D9. -/
def Obligations.PopPopsIntoRegister : Prop :=
  ∀ op1 op2 : Byte, decode (joinFields 0x0B op1 op2) = .pop op1 ∧
    (∀ (s : State) (d : Fin 32) (v : Byte) (rest : List Byte), RegNames s op1 d → PopAnswers s v rest →
      ∃ t, exec (.pop op1) s = .next t ∧ t.reg d = v ∧ SameRegsBut d s t ∧ t.stack = rest ∧
        stackTop t = stackTop s ∧ t.pc = s.pc ∧ SameData s t ∧ SameRest s t) ∧
    (∀ s : State, RegBad s op1 → exec (.pop op1) s = .fault (.registerIndexOutOfRange op1)) ∧
    (∀ (s : State) (d : Fin 32), RegNames s op1 d → PopBad s →
      exec (.pop op1) s = .fault .stackUnderflow) ∧
    (∀ (s : State) (src : Byte) (r d : Fin 32), RegNames s src r → RegNames s op1 d → HasRoom s →
      ∃ t u, exec (.push src) s = .next t ∧ exec (.pop op1) t = .next u ∧ u.reg d = s.reg r)

/-- An unrecognized opcode performs the full reset and nothing else, whatever its operands and whatever
the state; the next cycle fetches at address 0 (spec/60_exceptions.md R200). -/
def Obligations.UnrecognizedOpcodeResets : Prop :=
  ∀ o a b : Byte, (∀ m : Mnemonic, o ≠ m.opcode) → decode (joinFields o a b) = .unrecognized o ∧
    (∀ s : State, ∃ t, exec (.unrecognized o) s = .next t ∧ ResetOf s t) ∧
    (∀ s : State, s.state = .fetch → pmRead s s.pc = joinFields o a b →
      ∃ t, step s = .next t ∧ ResetOf s t ∧
        ∃ u, singleStep t = .next u ∧ u.mar = 0 ∧ u.ir = pmRead t 0)

/-- Every instruction that can run does: exec answers a next state exactly where the register operands
name registers, a push has room and a pop has a byte; elsewhere it raises a model fault; it never
refuses (spec/60_exceptions.md R204, R205, R210). The model faults are decisions D7, D8, D9. -/
def Obligations.EveryInstructionRunsExactlyWhereSafe : Prop :=
  ∀ (i : Instr) (s : State),
    (RunsSafely i s ↔ ∃ t, exec i s = .next t) ∧ (¬ RunsSafely i s ↔ ∃ f, exec i s = .fault f)

/-! ## Faults, reset, boot -/

/-- Which instruction raises which model fault, when, and with what it reports; a transition that raises
one is no next state (spec/60_exceptions.md R204). The model faults are decisions D7, D8, D9. -/
def Obligations.ModelFaultsByCause : Prop :=
  ∀ (i : Instr) (s : State),
    (∀ r, exec i s = .fault (.registerIndexOutOfRange r) ↔
      ∃ before after, i.regOperands = before ++ r :: after ∧ RegBad s r ∧ ∀ q ∈ before, ¬ RegBad s q) ∧
    (∀ v, exec i s = .fault (.stackOverflow v) ↔
      ¬ HasRoom s ∧ ((∃ a, i = .call a ∧ v = s.pc) ∨
        ∃ r d, i = .push r ∧ RegNames s r d ∧ v = s.reg d)) ∧
    (exec i s = .fault .stackUnderflow ↔
      PopBad s ∧ (i = .ret ∨ ∃ r d, i = .pop r ∧ RegNames s r d)) ∧
    (s.state = .execute → decodedInstr s = i → ∀ f, exec i s = .fault f → singleStep s = .fault f)

/-- The complete list of bad conditions (spec/60_exceptions.md R205): which one the next transition
meets, by its code, exactly when, and what happens then: the full reset, the benign default, or the model
fault. Codes 4 to 6 are the spec's own (D7, D8, D9), the data-memory default D4, the opcode values D1.
That an access out of range is made and answered by the default is the model's (notes/assumptions/17.md). -/
def Obligations.ConditionsAreClassified : Prop :=
  ∀ s : State,
    (∀ n ∈ [1, 2], (conditionOf s).map Condition.code = some n ↔
      ∃ c, resetCause s = some c ∧ c.code = n) ∧
    (∀ n ∈ [4, 5, 6], (conditionOf s).map Condition.code = some n ↔
      ∃ f, singleStep s = .fault f ∧ f.code = n) ∧
    ((conditionOf s).map Condition.code = some 3 ↔
      resetCause s = none ∧ (∃ t, singleStep s = .next t) ∧
        ((s.state = .fetch ∧ s.cfg.pmSize ≤ s.pc.toNat) ∨
          (s.state = .execute ∧
            ((s.opc = Mnemonic.out.opcode ∧ s.cfg.dmSize ≤ s.op1.toNat) ∨
              (s.opc = Mnemonic.inp.opcode ∧ s.cfg.dmSize ≤ s.op2.toNat) ∨
              (s.opc = Mnemonic.sts.opcode ∧ s.cfg.dmSize ≤ s.op1.toNat + 256) ∨
              (s.opc = Mnemonic.lds.opcode ∧ s.cfg.dmSize ≤ s.op2.toNat + 256))))) ∧
    (conditionOf s = some .unrecognizedOpcode ∨ conditionOf s = some .unrecognizedState →
      ∃ t, singleStep s = .next t ∧ ResetOf s t) ∧
    (conditionOf s = some .outOfRangeAddress → ∃ t, singleStep s = .next t ∧ SameData s t ∧
      (s.state = .fetch → t.ir = 0) ∧
      ∀ a v, PortAccess.dmRead a v ∈ accesses s → v = 0)

/-- The order in which bad conditions are looked at (spec/60_exceptions.md R206): the invalid state
before everything; then the unrecognized opcode, whatever the operands; then the register index, `op1`
of MOV first; then the stack. FETCH and DECODE raise nothing. The order of the checks is decision D9,
the opcode values D1. -/
def Obligations.ConditionPriority : Prop :=
  ∀ s : State,
    (s.state = .invalid → ∃ t, singleStep s = .next t ∧ ResetOf s t) ∧
    (s.state = .execute → 0x0C ≤ s.opc.toNat → ∃ t, singleStep s = .next t ∧ ResetOf s t) ∧
    (s.state = .execute → (s.opc = Mnemonic.push.opcode ∨ s.opc = Mnemonic.pop.opcode) →
      RegBad s s.op1 → singleStep s = .fault (.registerIndexOutOfRange s.op1)) ∧
    (s.state = .execute → s.opc = Mnemonic.mov.opcode → RegBad s s.op1 → RegBad s s.op2 →
      singleStep s = .fault (.registerIndexOutOfRange s.op1)) ∧
    (s.state = .fetch ∨ s.state = .decode → ∃ t, singleStep s = .next t)

/-- The full reset (spec/70_reset_and_hazards.md R220), asked for by the host in any state: every
register, the reload, and the two clears. Nothing is said of `lastPushed`. -/
def Obligations.FullResetClearsEverything : Prop :=
  ∀ s : State, ∃ t, serve .reset s = .next t ∧ ResetOf s t ∧
    ∀ a : Byte, a.toNat < s.cfg.pmSize → pmRead t a = Store.read s.cfg.image.words a.toNat

/-- The four ways into a reset perform the same one, and performing it twice is performing it once
(spec/70_reset_and_hazards.md R221), all but `lastPushed`, which is unspecified after each, and the
model's own count of draws (notes/assumptions/4.md). The opcode bound is decision D1. -/
def Obligations.ResetIsUniformAndIdempotent : Prop :=
  (∀ s : State, (s.state = .invalid ∨ (s.state = .execute ∧ 0x0C ≤ s.opc.toNat)) →
    singleStep s = serve .reset s) ∧
  (∀ (s : State) (l : Byte) (n : Nat), ∃ t u, serve .reset s = .next t ∧ serve .reset t = .next u ∧
    { u with lastPushed := l, draws := n } = { t with lastPushed := l, draws := n }) ∧
  (∀ (s : State) (l : Byte) (n : Nat), ∃ t b, serve .reset s = .next t ∧
    serveSession .reset (.unreset s.cfg) = .next (.running b) ∧
    { b with lastPushed := l, draws := n } = { t with lastPushed := l, draws := n })

/-- The state after reset, for every machine and for the model's own (spec/70_reset_and_hazards.md
R222): every register 0, FETCH, program memory the image, data memory 0, the stack empty; the first step
fetches at address 0. The flags' bits are decision D10; the model's own arguments are
notes/assumptions/2.md. -/
def Obligations.ResetStateIsZero : Prop :=
  (∀ c : Config, (∀ i : Fin 32, (bootState c).reg i = 0) ∧ (bootState c).pc = 0 ∧ (bootState c).ir = 0 ∧
    (bootState c).mar = 0 ∧ (bootState c).opc = 0 ∧ (bootState c).op1 = 0 ∧ (bootState c).op2 = 0 ∧
    (∀ f : Flag, flagOf (bootState c).sr f = false) ∧ (bootState c).state = .fetch ∧
    (bootState c).pm = c.image.words ∧ (∀ a : DataAddr, memRead (bootState c) a = 0) ∧
    (bootState c).stack = [] ∧ stackDepth (bootState c) = 0 ∧ (bootState c).cfg = c) ∧
  State.reset = bootState Config.standard ∧
  (∀ (c : Config) (t : State), step (bootState c) = .next t → resetCause (inExecute (bootState c)) = none →
    t.mar = 0 ∧ t.ir = pmRead (bootState c) 0)

/-- Before the first reset the host's steps are refused and only `reset()` is served, after which the
machine runs (spec/70_reset_and_hazards.md R223, R224; spec/90_conflicts.md C9). The refusal is decision
D18 with U14 (notes/assumptions/12.md). -/
def Obligations.StepBeforeResetIsRefused : Prop :=
  ∀ c : Config,
    serveSession .singleStep (.unreset c) = .refused .stepBeforeReset ∧
    serveSession .fullCycleStep (.unreset c) = .refused .stepBeforeReset ∧
    (∃ b, serveSession .reset (.unreset c) = .next (.running b) ∧ b.state = .fetch ∧ b.pc = 0) ∧
    (∀ (r : HostRequest) (s : State) (f : Refusal), serveSession r (.running s) ≠ .refused f)

/-- If the word at address 0 is unrecognized, every full cycle from there fetches it, resets, and
resumes at address 0, for any number of cycles (spec/60_exceptions.md R209). -/
def Obligations.UnrecognizedAtZeroLoopsForever : Prop :=
  ∀ (s : State) (o : Byte), s.state = .fetch → s.pc = 0 → s.pm = s.cfg.image.words →
    decode (pmRead s 0) = .unrecognized o →
    ∀ n : Nat, ∃ t, runSteps (n + 1) s = .next t ∧ ResetOf s t ∧
      decode (pmRead t 0) = .unrecognized o

/-! ## The stores -/

/-- PmRead (spec/20_memory.md R51): the word at the address, and the zero instruction at and above
PM_SIZE. That an address below PM_SIZE whose word is not listed reads the zero instruction too is the
model's choice (notes/assumptions/7.md). -/
def Obligations.ProgramReadContract : Prop :=
  ∀ (s : State) (a : Byte), ProgramMemory.wf s.cfg.pmSize s.pm = true →
    (∀ w, (a.toNat, w) ∈ s.pm → a.toNat < s.cfg.pmSize ∧ pmRead s a = w) ∧
    ((∀ w, (a.toNat, w) ∉ s.pm) → pmRead s a = 0) ∧ (s.cfg.pmSize ≤ a.toNat → pmRead s a = 0)

/-- Data memory is a plain store (spec/20_memory.md R57): after a reset and any writes, an address that
exists reads the value most recently written to it, or 0 if none was; one that does not exist reads 0.
That no other agent writes is decision D6, the default out of range D4. -/
def Obligations.DataMemoryIsPlainStore : Prop :=
  ∀ (s : State) (ws : List (DataAddr × Byte)) (a : DataAddr),
    memRead (writeAll (fullReset s) ws) a =
      if a.toNat < s.cfg.dmSize then
        ((ws.reverse.find? fun w => decide (w.1 = a)).map Prod.snd).getD 0
      else 0

/-- Push, Pop, depth() and top() (spec/20_memory.md R60, R61, R62), each in every state, with the whole
of the rest of the state unchanged. STACK_CAPACITY and STACK_UNDERFLOW are decisions D7 and D8. -/
def Obligations.PushPopContract : Prop :=
  (∀ (s : State) (v : Byte), HasRoom s → ∃ t, push s v = .ok t ∧ t.stack = s.stack ++ [v] ∧
    stackDepth t = stackDepth s + 1 ∧ stackTop t = v ∧ t.pc = s.pc ∧ SameRegs s t ∧ SameData s t ∧
    SameRest s t) ∧
  (∀ (s : State) (v : Byte), ¬ HasRoom s → push s v = .error (.stackOverflow v)) ∧
  (∀ (s : State) (v : Byte) (rest : List Byte), PopAnswers s v rest → ∃ t, pop s = .ok (v, t) ∧
    t.stack = rest ∧ stackDepth t = stackDepth s - 1 ∧ stackTop t = stackTop s ∧ t.pc = s.pc ∧
    SameRegs s t ∧ SameData s t ∧ SameRest s t) ∧
  (∀ s : State, PopBad s → pop s = .error .stackUnderflow)

/-- The stack is a LIFO store (spec/20_memory.md R59): bytes pushed, where they fit, come back in the
opposite order and leave the stack as it was, with `top()` still the last one pushed. STACK_CAPACITY is
decision D7. -/
def Obligations.StackIsLastInFirstOut : Prop :=
  ∀ (s : State) (vs : List Byte),
    (∀ c, s.cfg.stackCapacity = some c → s.stack.length + vs.length ≤ c) →
    ∃ t u, pushAll s vs = .ok t ∧ t.stack = s.stack ++ vs ∧
      popAll t vs.length = .ok (vs.reverse, u) ∧ u.stack = s.stack ∧
      stackTop u = (vs.getLast?).getD (stackTop s)

/-- CALL immediately followed by RET restores PC to the address following the CALL, and the stack, for
any target address (spec/43_control_transfer.md R161). The wrap is decision D2. -/
def Obligations.CallThenRetReturns : Prop :=
  ∀ (s : State) (a : Byte), s.state = .fetch → HasRoom s → decode (pmRead s s.pc) = .call a →
    decode (pmRead s a) = .ret →
    ∃ t u, step s = .next t ∧ t.pc = a ∧ step t = .next u ∧ u.pc.toNat = (s.pc.toNat + 1) % 256 ∧
      u.stack = s.stack ∧ SameRegs s u ∧ SameData s u

/-- A constant written by LDI, stored by OUT and read by IN comes back, and so through STS and LDS; the
two pages do not disturb each other (spec/95_test_vectors.md W6, W7). -/
def Obligations.StoreThenLoadReturnsValue : Prop :=
  ∀ (s : State) (r q k a : Byte) (d e : Fin 32), RegNames s r d → RegNames s q e →
    Memory.wf s.cfg.dmSize s.dm = true → 512 ≤ s.cfg.dmSize →
    (∃ t u v, exec (.ldi r k) s = .next t ∧ exec (.out a r) t = .next u ∧ exec (.inp q a) u = .next v ∧
      v.reg e = k ∧ ∀ b : Byte, memRead v (extAddr b) = memRead s (extAddr b)) ∧
    (∃ u v, exec (.sts a r) s = .next u ∧ exec (.lds q a) u = .next v ∧ v.reg e = s.reg d ∧
      ∀ b : Byte, memRead v (ioAddr b) = memRead s (ioAddr b))

/-- A transition makes at most one collaborator access, and none if it raises a model fault; a full
reset makes the three reset requests (spec/20_memory.md R68). That a raised fault makes no access is the
model's (notes/assumptions/17.md). -/
def Obligations.OneCollaboratorAccessPerTransition : Prop :=
  ∀ s : State,
    (resetCause s = none → (accesses s).length ≤ 1) ∧
    (∀ c, resetCause s = some c → accesses s = [.pmReload, .dmClear, .stkClear]) ∧
    (∀ f, singleStep s = .fault f → accesses s = [])

/-- The transactions on the ports account for all a served request, and all a transition, does to the
three stores (spec/40_fsm_cycle.md R109, spec/20_memory.md R68). The ports are decision D13
(notes/assumptions/17.md). -/
def Obligations.PortAccessesAccountForStores : Prop :=
  (∀ s t : State, singleStep s = .next t →
    storesOf t = (accesses s).foldl (serveAccess s.cfg) (storesOf s)) ∧
  (∀ (r : HostRequest) (s t : State), serve r s = .next t →
    storesOf t = (requestAccesses r s).foldl (serveAccess s.cfg) (storesOf s))

/-- What each host request shows on the ports (spec/40_fsm_cycle.md R109): `reset_req` the three reset
requests, at startup too; `step_req` one transition's transactions and tag; `cycle_req` those of each
transition until EXECUTE, the last tag, without its cause, being the request's outcome. The ports are
decision D13, the tag D19. That the host's reset shows no tag is the model's (notes/assumptions/17.md). -/
def Obligations.RequestsOnThePorts : Prop :=
  (∀ s : State, requestAccesses .reset s = [.pmReload, .dmClear, .stkClear] ∧ requestTags .reset s = [] ∧
    requestAccesses .singleStep s = accesses s ∧ requestTags .singleStep s = [taggedStep s]) ∧
  (∀ c : Config, sessionAccesses .reset (.unreset c) = [.pmReload, .dmClear, .stkClear] ∧
    sessionAccesses .singleStep (.unreset c) = [] ∧ sessionAccesses .fullCycleStep (.unreset c) = []) ∧
  (∀ s : State, s.state = .fetch →
    requestAccesses .fullCycleStep s =
      .pmRead s.pc (pmRead s s.pc) :: execAccesses (decode (pmRead s s.pc)) (inExecute s) ∧
    ∃ t u, requestTags .fullCycleStep s = [.ok t, .ok u, taggedStep (inExecute s)] ∧
      t.state = .decode ∧ u = inExecute s) ∧
  (∀ s : State, s.state = .invalid →
    requestAccesses .fullCycleStep s =
      [.pmReload, .dmClear, .stkClear] ++ requestAccesses .fullCycleStep (fullReset s) ∧
    requestTags .fullCycleStep s =
      .reset .unrecognizedState (fullReset s) :: requestTags .fullCycleStep (fullReset s)) ∧
  (∀ s : State, (requestTags .fullCycleStep s).length = cycleLength s.state ∧
    ((requestTags .fullCycleStep s).getLast?).map Tagged.untagged = some (serve .fullCycleStep s))

/-! ## Invariants and whole-machine rules -/

/-- The invariant holds right after reset, for every machine whose arguments are as the spec asks. -/
def Obligations.InvariantHoldsAtReset : Prop :=
  Inv State.reset ∧ configOk Config.standard = true ∧
    ∀ c : Config, configOk c = true → Inv (bootState c)

/-- Every step keeps the invariant and returns to FETCH: memory canonical, program memory the image,
SR 0, a valid FSM state, the stack within its capacity (spec/10_state.md R24-R28, R30, R33). -/
def Obligations.StepKeepsInvariant : Prop :=
  ∀ s t : State, Inv s → step s = .next t → Inv t ∧ t.state = .fetch

/-- Every request of the host keeps the invariant, the mid-cycle states among them
(spec/10_state.md R24-R28, R30, R33; spec/40_fsm_cycle.md R108). -/
def Obligations.HostRequestsKeepInvariant : Prop :=
  ∀ (r : HostRequest) (s t : State), Inv s → serve r s = .next t → Inv t

/-- Whether a step from FETCH ends in a next state is known before it from the word at PC, the model
arguments and the stack: exactly where the instruction it decodes to runs safely
(spec/60_exceptions.md R204, R206). -/
def Obligations.StepSafeExactlyWhereInstructionIs : Prop :=
  ∀ s : State, s.state = .fetch → (StepSafe s ↔ RunsSafely (decode (pmRead s s.pc)) s)

/-- Nothing the core does changes program memory, PROGRAM_IMAGE or a model argument, so no store is
ever seen by a fetch (spec/20_memory.md R72). -/
def Obligations.ProgramMemoryNeverChanges : Prop :=
  ∀ (r : HostRequest) (s t : State), s.pm = s.cfg.image.words → serve r s = .next t →
    t.pm = s.pm ∧ t.cfg = s.cfg ∧ ∀ a : Byte, pmRead t a = pmRead s a

/-- No transition but the full reset writes SR, which it zeroes, and no transition reads it: with any
other value in SR it does the same (spec/10_state.md R28). -/
def Obligations.StatusRegisterOnlyReset : Prop :=
  ∀ s t : State, singleStep s = .next t →
    (resetCause s = none → t.sr = s.sr ∧
      ∀ v : StatusWord, singleStep { s with sr := v } = .next { t with sr := v }) ∧
    (resetCause s ≠ none → t.sr = 0)

/-- No instruction's rule reads or writes IR, MAR, the decoded fields, SR or the FSM state: with other
values in them it does the same and leaves those values (spec/10_state.md R25, R26, R28, R31). -/
def Obligations.InternalRegistersAreUnseen : Prop :=
  ∀ (i : Instr) (s t : State) (ir : Word24) (mar opc op1 op2 : Byte) (sr : StatusWord) (f : FsmState),
    i.mnemonic ≠ none → exec i s = .next t →
    exec i { s with ir := ir, mar := mar, opc := opc, op1 := op1, op2 := op2, sr := sr, state := f } =
      .next { t with ir := ir, mar := mar, opc := opc, op1 := op1, op2 := op2, sr := sr, state := f }

/-- NOP, JMP, CALL and RET neither read nor write the register file; OUT, STS and PUSH do not write it;
LDI, IN, LDS and POP do not read it (spec/10_state.md R21). -/
def Obligations.RegisterFileReadersAndWriters : Prop :=
  ∀ (i : Instr) (s t : State) (y : Vector Byte 32), exec i s = .next t →
    (i.mnemonic ∈ [some .nop, some .jmp, some .call, some .ret] →
      exec i { s with x := y } = .next { t with x := y }) ∧
    (i.mnemonic ∈ [some .out, some .sts, some .push] → t.x = s.x) ∧
    (i.mnemonic ∈ [some .ldi, some .inp, some .lds, some .pop] →
      ∃ (d : Fin 32) (v : Byte), t.x = s.x.set d.val v ∧
        exec i { s with x := y } = .next { t with x := y.set d.val v })

/-- The stack's depth and `top()` are diagnostic: no instruction reads `lastPushed`
(spec/20_memory.md R62). -/
def Obligations.LastPushedIsUnread : Prop :=
  ∀ (i : Instr) (s t : State) (l : Byte), exec i s = .next t →
    ∃ l', exec i { s with lastPushed := l } = .next { t with lastPushed := l' }

/-- A jump to itself repeats for ever: at every cycle boundary PC, every register, data byte and stack
entry, SR, program memory and the model arguments are as before; MAR, IR and the decoded fields are those
of the jump (spec/43_control_transfer.md R160, spec/70_reset_and_hazards.md R229). A step is a full cycle
(notes/assumptions/5.md). -/
def Obligations.SelfJumpRepeatsForever : Prop :=
  ∀ s : State, s.state = .fetch → decode (pmRead s s.pc) = .jmp s.pc →
    ∀ n : Nat, ∃ t, runSteps n s = .next t ∧ t.state = .fetch ∧ t.pc = s.pc ∧ SameRegs s t ∧
      SameData s t ∧ SameStack s t ∧ t.sr = s.sr ∧ t.dm = s.dm ∧ t.pm = s.pm ∧ t.cfg = s.cfg ∧
      t.draws = s.draws ∧
      (0 < n → t.mar = s.pc ∧ t.ir = pmRead s s.pc ∧ t.opc = fieldOpcode t.ir ∧ t.op1 = s.pc ∧
        t.op2 = fieldOp2 t.ir)

/-- A word placed where the machine fetches next is what the next step fetches and runs
(the model's loading convention, notes/assumptions/8.md; spec/20_memory.md R52). -/
def Obligations.PlacedWordIsRunNext : Prop :=
  ∀ (s : State) (w : Nat), w < 2 ^ 24 →
    ProgramMemory.wf s.cfg.pmSize s.pm = true →
    pmRead (s.withFetchWord 24 w) s.pc = BitVec.ofNat 24 w ∧
    step (s.withFetchWord 24 w) =
      andThen (exec (decode (BitVec.ofNat 24 w)) (inExecute (s.withFetchWord 24 w)))
        (fun t => .next (t.setState .fetch)) ∧
    (∀ a : Byte, a ≠ s.pc → a.toNat < s.cfg.pmSize → pmRead (s.withFetchWord 24 w) a = pmRead s a)

/-- The snapshot's subroutine name (spec/20_memory.md R53): the label of the range MAR lies in, the
ranges not overlapping, and "Unknown" outside all of them. -/
def Obligations.SubroutineNameResolves : Prop :=
  ∀ s : State,
    (s.cfg.image.subroutines.Pairwise fun p q => p.last.toNat < q.first.toNat ∨ q.last.toNat < p.first.toNat) →
    (∀ r ∈ s.cfg.image.subroutines, r.first.toNat ≤ s.mar.toNat → s.mar.toNat ≤ r.last.toNat →
      (snapshot s).subroutine = r.label) ∧
    ((∀ r ∈ s.cfg.image.subroutines, ¬ (r.first.toNat ≤ s.mar.toNat ∧ s.mar.toNat ≤ r.last.toNat)) →
      (snapshot s).subroutine = "Unknown")

/-- The snapshot's other items (spec/60_exceptions.md R211): the opcode's mnemonic, the state name, PC,
depth, top, IR, SR, the named registers, and the named I/O locations, which are the three I/O registers
and the machine's further ones, each with its byte. Nothing is said of an unrecognized opcode's label,
the invalid state's name or the order of the locations (notes/assumptions/14.md, 15.md). -/
def Obligations.SnapshotShowsState : Prop :=
  ∀ s : State,
    (∀ m : Mnemonic, s.opc = m.opcode → (snapshot s).mnemonic = m.name) ∧
    (s.state = .fetch → (snapshot s).stateName = "FETCH") ∧
    (s.state = .decode → (snapshot s).stateName = "DECODE") ∧
    (s.state = .execute → (snapshot s).stateName = "EXECUTE") ∧
    (snapshot s).pc = s.pc ∧ (snapshot s).depth = s.stack.length ∧ (snapshot s).top = s.lastPushed ∧
    (snapshot s).ir = s.ir ∧ (snapshot s).sr = s.sr ∧
    (∀ i v, (i, v) ∈ (snapshot s).namedRegs ↔ i ∈ s.cfg.namedRegs ∧ v = s.reg i) ∧
    (∀ a v, (a, v) ∈ (snapshot s).namedIo ↔
      ∃ b ∈ shownIo s.cfg, a = ioAddr b ∧ v = memRead s (ioAddr b)) ∧
    (∀ b, b ∈ shownIo s.cfg ↔
      b = s.cfg.dirAddr ∨ b = s.cfg.outAddr ∨ b = s.cfg.inAddr ∨ b ∈ s.cfg.namedIo)
end

