-- ==== Sys2Proof/Laws/Decode.lean ====
section
/-! SUPPORT. The three fields of a word, and the decoder's case distinction on the opcode. -/

namespace Sys2Proof

@[simp] theorem fieldOpcode_joinFields (a b c : Byte) : fieldOpcode (joinFields a b c) = a := by
  apply BitVec.eq_of_getLsbD_eq
  intro i hi
  simp only [fieldOpcode, joinFields, BitVec.getLsbD_extractLsb', BitVec.getLsbD_append]
  have h1 : ¬ 16 + i < 8 := by omega
  have h2 : ¬ 16 + i - 8 < 8 := by omega
  have h3 : 16 + i - 8 - 8 = i := by omega
  simp [hi, h1, h2, h3]

@[simp] theorem fieldOp1_joinFields (a b c : Byte) : fieldOp1 (joinFields a b c) = b := by
  apply BitVec.eq_of_getLsbD_eq
  intro i hi
  simp only [fieldOp1, joinFields, BitVec.getLsbD_extractLsb', BitVec.getLsbD_append]
  have h1 : ¬ 8 + i < 8 := by omega
  simp [hi, h1]

@[simp] theorem fieldOp2_joinFields (a b c : Byte) : fieldOp2 (joinFields a b c) = c := by
  apply BitVec.eq_of_getLsbD_eq
  intro i hi
  simp only [fieldOp2, joinFields, BitVec.getLsbD_extractLsb', BitVec.getLsbD_append]
  simp [hi]

/-- A word is its three fields put together. -/
theorem joinFields_fields (w : Word24) : joinFields (fieldOpcode w) (fieldOp1 w) (fieldOp2 w) = w := by
  apply BitVec.eq_of_getLsbD_eq
  intro i hi
  simp only [fieldOpcode, fieldOp1, fieldOp2, joinFields, BitVec.getLsbD_extractLsb', BitVec.getLsbD_append]
  by_cases h1 : i < 8
  · simp [h1]
  · by_cases h2 : i - 8 < 8
    · have h3 : 8 + (i - 8) = i := by omega
      simp [h1, h2, h3]
    · have h3 : 16 + (i - 8 - 8) = i := by omega
      have h4 : i - 8 - 8 < 8 := by omega
      simp [h1, h2, h3, h4]

theorem decode_joinFields (a b c : Byte) : decode (joinFields a b c) = decodeFields a b c := by
  simp [decode]

/-- The opcode is one of the twelve, or 12 or more. -/
theorem opcode_cases (o : Byte) : (∃ m : Mnemonic, o = m.opcode) ∨ opcodeCount ≤ o.toNat := by
  by_cases h : opcodeCount ≤ o.toNat
  · exact .inr h
  · left
    have h' : o.toNat < 12 := by unfold opcodeCount at h; omega
    have ho : o = BitVec.ofNat 8 o.toNat := by simp
    generalize o.toNat = n at h' ho
    subst ho
    interval_cases n
    · exact ⟨.nop, rfl⟩
    · exact ⟨.ldi, rfl⟩
    · exact ⟨.mov, rfl⟩
    · exact ⟨.out, rfl⟩
    · exact ⟨.inp, rfl⟩
    · exact ⟨.sts, rfl⟩
    · exact ⟨.lds, rfl⟩
    · exact ⟨.jmp, rfl⟩
    · exact ⟨.call, rfl⟩
    · exact ⟨.ret, rfl⟩
    · exact ⟨.push, rfl⟩
    · exact ⟨.pop, rfl⟩

/-- An opcode of 12 or more is unrecognized, whatever the operands (spec/30_encoding.md R85). -/
theorem decodeFields_unrecognized {o : Byte} (h : opcodeCount ≤ o.toNat) (a b : Byte) :
    decodeFields o a b = .unrecognized o := by
  unfold opcodeCount at h
  unfold decodeFields
  split <;> first | omega | rfl

/-- What an unrecognized decoding says of the opcode field. -/
theorem decodeFields_eq_unrecognized {o a b p : Byte} (h : decodeFields o a b = .unrecognized p) :
    p = o ∧ opcodeCount ≤ o.toNat := by
  rcases opcode_cases o with ⟨m, rfl⟩ | ho
  · cases m <;> cases h
  · rw [decodeFields_unrecognized ho] at h
    cases h
    exact ⟨rfl, ho⟩

end Sys2Proof
end

