-- ==== Sys2Proof/Laws/State.lean ====
section
/-! SUPPORT. One lemma for each field under each update of the state, true by `rfl`, so that no later
proof unfolds a record update; and how each update leaves a register and a byte of memory reading. -/

namespace Sys2Proof.Machine

open Sys2Proof

@[simp] theorem State.setReg_cfg (s : State) (i : Fin 32) (v : Byte) : (s.setReg i v).cfg = s.cfg := rfl
@[simp] theorem State.setReg_x (s : State) (i : Fin 32) (v : Byte) : (s.setReg i v).x = s.x.set i.val v := rfl
@[simp] theorem State.setReg_pc (s : State) (i : Fin 32) (v : Byte) : (s.setReg i v).pc = s.pc := rfl
@[simp] theorem State.setReg_ir (s : State) (i : Fin 32) (v : Byte) : (s.setReg i v).ir = s.ir := rfl
@[simp] theorem State.setReg_mar (s : State) (i : Fin 32) (v : Byte) : (s.setReg i v).mar = s.mar := rfl
@[simp] theorem State.setReg_opc (s : State) (i : Fin 32) (v : Byte) : (s.setReg i v).opc = s.opc := rfl
@[simp] theorem State.setReg_op1 (s : State) (i : Fin 32) (v : Byte) : (s.setReg i v).op1 = s.op1 := rfl
@[simp] theorem State.setReg_op2 (s : State) (i : Fin 32) (v : Byte) : (s.setReg i v).op2 = s.op2 := rfl
@[simp] theorem State.setReg_sr (s : State) (i : Fin 32) (v : Byte) : (s.setReg i v).sr = s.sr := rfl
@[simp] theorem State.setReg_state (s : State) (i : Fin 32) (v : Byte) : (s.setReg i v).state = s.state := rfl
@[simp] theorem State.setReg_pm (s : State) (i : Fin 32) (v : Byte) : (s.setReg i v).pm = s.pm := rfl
@[simp] theorem State.setReg_dm (s : State) (i : Fin 32) (v : Byte) : (s.setReg i v).dm = s.dm := rfl
@[simp] theorem State.setReg_stack (s : State) (i : Fin 32) (v : Byte) : (s.setReg i v).stack = s.stack := rfl
@[simp] theorem State.setReg_lastPushed (s : State) (i : Fin 32) (v : Byte) : (s.setReg i v).lastPushed = s.lastPushed := rfl
@[simp] theorem State.setReg_draws (s : State) (i : Fin 32) (v : Byte) : (s.setReg i v).draws = s.draws := rfl

@[simp] theorem State.setPc_cfg (s : State) (a : Byte) : (s.setPc a).cfg = s.cfg := rfl
@[simp] theorem State.setPc_x (s : State) (a : Byte) : (s.setPc a).x = s.x := rfl
@[simp] theorem State.setPc_pc (s : State) (a : Byte) : (s.setPc a).pc = a := rfl
@[simp] theorem State.setPc_ir (s : State) (a : Byte) : (s.setPc a).ir = s.ir := rfl
@[simp] theorem State.setPc_mar (s : State) (a : Byte) : (s.setPc a).mar = s.mar := rfl
@[simp] theorem State.setPc_opc (s : State) (a : Byte) : (s.setPc a).opc = s.opc := rfl
@[simp] theorem State.setPc_op1 (s : State) (a : Byte) : (s.setPc a).op1 = s.op1 := rfl
@[simp] theorem State.setPc_op2 (s : State) (a : Byte) : (s.setPc a).op2 = s.op2 := rfl
@[simp] theorem State.setPc_sr (s : State) (a : Byte) : (s.setPc a).sr = s.sr := rfl
@[simp] theorem State.setPc_state (s : State) (a : Byte) : (s.setPc a).state = s.state := rfl
@[simp] theorem State.setPc_pm (s : State) (a : Byte) : (s.setPc a).pm = s.pm := rfl
@[simp] theorem State.setPc_dm (s : State) (a : Byte) : (s.setPc a).dm = s.dm := rfl
@[simp] theorem State.setPc_stack (s : State) (a : Byte) : (s.setPc a).stack = s.stack := rfl
@[simp] theorem State.setPc_lastPushed (s : State) (a : Byte) : (s.setPc a).lastPushed = s.lastPushed := rfl
@[simp] theorem State.setPc_draws (s : State) (a : Byte) : (s.setPc a).draws = s.draws := rfl

@[simp] theorem State.setState_cfg (s : State) (f : FsmState) : (s.setState f).cfg = s.cfg := rfl
@[simp] theorem State.setState_x (s : State) (f : FsmState) : (s.setState f).x = s.x := rfl
@[simp] theorem State.setState_pc (s : State) (f : FsmState) : (s.setState f).pc = s.pc := rfl
@[simp] theorem State.setState_ir (s : State) (f : FsmState) : (s.setState f).ir = s.ir := rfl
@[simp] theorem State.setState_mar (s : State) (f : FsmState) : (s.setState f).mar = s.mar := rfl
@[simp] theorem State.setState_opc (s : State) (f : FsmState) : (s.setState f).opc = s.opc := rfl
@[simp] theorem State.setState_op1 (s : State) (f : FsmState) : (s.setState f).op1 = s.op1 := rfl
@[simp] theorem State.setState_op2 (s : State) (f : FsmState) : (s.setState f).op2 = s.op2 := rfl
@[simp] theorem State.setState_sr (s : State) (f : FsmState) : (s.setState f).sr = s.sr := rfl
@[simp] theorem State.setState_state (s : State) (f : FsmState) : (s.setState f).state = f := rfl
@[simp] theorem State.setState_pm (s : State) (f : FsmState) : (s.setState f).pm = s.pm := rfl
@[simp] theorem State.setState_dm (s : State) (f : FsmState) : (s.setState f).dm = s.dm := rfl
@[simp] theorem State.setState_stack (s : State) (f : FsmState) : (s.setState f).stack = s.stack := rfl
@[simp] theorem State.setState_lastPushed (s : State) (f : FsmState) : (s.setState f).lastPushed = s.lastPushed := rfl
@[simp] theorem State.setState_draws (s : State) (f : FsmState) : (s.setState f).draws = s.draws := rfl

@[simp] theorem State.pushed_cfg (s : State) (v : Byte) : (s.pushed v).cfg = s.cfg := rfl
@[simp] theorem State.pushed_x (s : State) (v : Byte) : (s.pushed v).x = s.x := rfl
@[simp] theorem State.pushed_pc (s : State) (v : Byte) : (s.pushed v).pc = s.pc := rfl
@[simp] theorem State.pushed_ir (s : State) (v : Byte) : (s.pushed v).ir = s.ir := rfl
@[simp] theorem State.pushed_mar (s : State) (v : Byte) : (s.pushed v).mar = s.mar := rfl
@[simp] theorem State.pushed_opc (s : State) (v : Byte) : (s.pushed v).opc = s.opc := rfl
@[simp] theorem State.pushed_op1 (s : State) (v : Byte) : (s.pushed v).op1 = s.op1 := rfl
@[simp] theorem State.pushed_op2 (s : State) (v : Byte) : (s.pushed v).op2 = s.op2 := rfl
@[simp] theorem State.pushed_sr (s : State) (v : Byte) : (s.pushed v).sr = s.sr := rfl
@[simp] theorem State.pushed_state (s : State) (v : Byte) : (s.pushed v).state = s.state := rfl
@[simp] theorem State.pushed_pm (s : State) (v : Byte) : (s.pushed v).pm = s.pm := rfl
@[simp] theorem State.pushed_dm (s : State) (v : Byte) : (s.pushed v).dm = s.dm := rfl
@[simp] theorem State.pushed_stack (s : State) (v : Byte) : (s.pushed v).stack = s.stack ++ [v] := rfl
@[simp] theorem State.pushed_lastPushed (s : State) (v : Byte) : (s.pushed v).lastPushed = v := rfl
@[simp] theorem State.pushed_draws (s : State) (v : Byte) : (s.pushed v).draws = s.draws := rfl

@[simp] theorem State.popped_cfg (s : State) : (s.popped).cfg = s.cfg := rfl
@[simp] theorem State.popped_x (s : State) : (s.popped).x = s.x := rfl
@[simp] theorem State.popped_pc (s : State) : (s.popped).pc = s.pc := rfl
@[simp] theorem State.popped_ir (s : State) : (s.popped).ir = s.ir := rfl
@[simp] theorem State.popped_mar (s : State) : (s.popped).mar = s.mar := rfl
@[simp] theorem State.popped_opc (s : State) : (s.popped).opc = s.opc := rfl
@[simp] theorem State.popped_op1 (s : State) : (s.popped).op1 = s.op1 := rfl
@[simp] theorem State.popped_op2 (s : State) : (s.popped).op2 = s.op2 := rfl
@[simp] theorem State.popped_sr (s : State) : (s.popped).sr = s.sr := rfl
@[simp] theorem State.popped_state (s : State) : (s.popped).state = s.state := rfl
@[simp] theorem State.popped_pm (s : State) : (s.popped).pm = s.pm := rfl
@[simp] theorem State.popped_dm (s : State) : (s.popped).dm = s.dm := rfl
@[simp] theorem State.popped_stack (s : State) : (s.popped).stack = s.stack.dropLast := rfl
@[simp] theorem State.popped_lastPushed (s : State) : (s.popped).lastPushed = s.lastPushed := rfl
@[simp] theorem State.popped_draws (s : State) : (s.popped).draws = s.draws := rfl

@[simp] theorem fetchTransition_cfg (s : State) : (fetchTransition s).cfg = s.cfg := rfl
@[simp] theorem fetchTransition_x (s : State) : (fetchTransition s).x = s.x := rfl
@[simp] theorem fetchTransition_pc (s : State) : (fetchTransition s).pc = s.pc + 1 := rfl
@[simp] theorem fetchTransition_ir (s : State) : (fetchTransition s).ir = pmRead s s.pc := rfl
@[simp] theorem fetchTransition_mar (s : State) : (fetchTransition s).mar = s.pc := rfl
@[simp] theorem fetchTransition_opc (s : State) : (fetchTransition s).opc = s.opc := rfl
@[simp] theorem fetchTransition_op1 (s : State) : (fetchTransition s).op1 = s.op1 := rfl
@[simp] theorem fetchTransition_op2 (s : State) : (fetchTransition s).op2 = s.op2 := rfl
@[simp] theorem fetchTransition_sr (s : State) : (fetchTransition s).sr = s.sr := rfl
@[simp] theorem fetchTransition_state (s : State) : (fetchTransition s).state = .decode := rfl
@[simp] theorem fetchTransition_pm (s : State) : (fetchTransition s).pm = s.pm := rfl
@[simp] theorem fetchTransition_dm (s : State) : (fetchTransition s).dm = s.dm := rfl
@[simp] theorem fetchTransition_stack (s : State) : (fetchTransition s).stack = s.stack := rfl
@[simp] theorem fetchTransition_lastPushed (s : State) : (fetchTransition s).lastPushed = s.lastPushed := rfl
@[simp] theorem fetchTransition_draws (s : State) : (fetchTransition s).draws = s.draws := rfl

@[simp] theorem decodeTransition_cfg (s : State) : (decodeTransition s).cfg = s.cfg := rfl
@[simp] theorem decodeTransition_x (s : State) : (decodeTransition s).x = s.x := rfl
@[simp] theorem decodeTransition_pc (s : State) : (decodeTransition s).pc = s.pc := rfl
@[simp] theorem decodeTransition_ir (s : State) : (decodeTransition s).ir = s.ir := rfl
@[simp] theorem decodeTransition_mar (s : State) : (decodeTransition s).mar = s.mar := rfl
@[simp] theorem decodeTransition_opc (s : State) : (decodeTransition s).opc = fieldOpcode s.ir := rfl
@[simp] theorem decodeTransition_op1 (s : State) : (decodeTransition s).op1 = fieldOp1 s.ir := rfl
@[simp] theorem decodeTransition_op2 (s : State) : (decodeTransition s).op2 = fieldOp2 s.ir := rfl
@[simp] theorem decodeTransition_sr (s : State) : (decodeTransition s).sr = s.sr := rfl
@[simp] theorem decodeTransition_state (s : State) : (decodeTransition s).state = .execute := rfl
@[simp] theorem decodeTransition_pm (s : State) : (decodeTransition s).pm = s.pm := rfl
@[simp] theorem decodeTransition_dm (s : State) : (decodeTransition s).dm = s.dm := rfl
@[simp] theorem decodeTransition_stack (s : State) : (decodeTransition s).stack = s.stack := rfl
@[simp] theorem decodeTransition_lastPushed (s : State) : (decodeTransition s).lastPushed = s.lastPushed := rfl
@[simp] theorem decodeTransition_draws (s : State) : (decodeTransition s).draws = s.draws := rfl

@[simp] theorem fullReset_cfg (s : State) : (fullReset s).cfg = s.cfg := rfl
@[simp] theorem fullReset_x (s : State) : (fullReset s).x = Vector.replicate 32 0 := rfl
@[simp] theorem fullReset_pc (s : State) : (fullReset s).pc = 0 := rfl
@[simp] theorem fullReset_ir (s : State) : (fullReset s).ir = 0 := rfl
@[simp] theorem fullReset_mar (s : State) : (fullReset s).mar = 0 := rfl
@[simp] theorem fullReset_opc (s : State) : (fullReset s).opc = 0 := rfl
@[simp] theorem fullReset_op1 (s : State) : (fullReset s).op1 = 0 := rfl
@[simp] theorem fullReset_op2 (s : State) : (fullReset s).op2 = 0 := rfl
@[simp] theorem fullReset_sr (s : State) : (fullReset s).sr = 0 := rfl
@[simp] theorem fullReset_state (s : State) : (fullReset s).state = .fetch := rfl
@[simp] theorem fullReset_pm (s : State) : (fullReset s).pm = s.cfg.image.words := rfl
@[simp] theorem fullReset_dm (s : State) : (fullReset s).dm = [] := rfl
@[simp] theorem fullReset_stack (s : State) : (fullReset s).stack = [] := rfl
@[simp] theorem fullReset_lastPushed (s : State) : (fullReset s).lastPushed = Config.freeTop s.draws := rfl
@[simp] theorem fullReset_draws (s : State) : (fullReset s).draws = s.draws + 1 := rfl

@[simp] theorem memWrite_cfg (s : State) (a : DataAddr) (v : Byte) : (memWrite s a v).cfg = s.cfg := by
  unfold memWrite; split <;> rfl
@[simp] theorem memWrite_x (s : State) (a : DataAddr) (v : Byte) : (memWrite s a v).x = s.x := by
  unfold memWrite; split <;> rfl
@[simp] theorem memWrite_pc (s : State) (a : DataAddr) (v : Byte) : (memWrite s a v).pc = s.pc := by
  unfold memWrite; split <;> rfl
@[simp] theorem memWrite_ir (s : State) (a : DataAddr) (v : Byte) : (memWrite s a v).ir = s.ir := by
  unfold memWrite; split <;> rfl
@[simp] theorem memWrite_mar (s : State) (a : DataAddr) (v : Byte) : (memWrite s a v).mar = s.mar := by
  unfold memWrite; split <;> rfl
@[simp] theorem memWrite_opc (s : State) (a : DataAddr) (v : Byte) : (memWrite s a v).opc = s.opc := by
  unfold memWrite; split <;> rfl
@[simp] theorem memWrite_op1 (s : State) (a : DataAddr) (v : Byte) : (memWrite s a v).op1 = s.op1 := by
  unfold memWrite; split <;> rfl
@[simp] theorem memWrite_op2 (s : State) (a : DataAddr) (v : Byte) : (memWrite s a v).op2 = s.op2 := by
  unfold memWrite; split <;> rfl
@[simp] theorem memWrite_sr (s : State) (a : DataAddr) (v : Byte) : (memWrite s a v).sr = s.sr := by
  unfold memWrite; split <;> rfl
@[simp] theorem memWrite_state (s : State) (a : DataAddr) (v : Byte) : (memWrite s a v).state = s.state := by
  unfold memWrite; split <;> rfl
@[simp] theorem memWrite_pm (s : State) (a : DataAddr) (v : Byte) : (memWrite s a v).pm = s.pm := by
  unfold memWrite; split <;> rfl
theorem memWrite_dm (s : State) (a : DataAddr) (v : Byte) :
    (memWrite s a v).dm = if a.toNat < s.cfg.dmSize then Store.write s.dm a.toNat v else s.dm := by
  unfold memWrite; split <;> rfl
@[simp] theorem memWrite_stack (s : State) (a : DataAddr) (v : Byte) : (memWrite s a v).stack = s.stack := by
  unfold memWrite; split <;> rfl
@[simp] theorem memWrite_lastPushed (s : State) (a : DataAddr) (v : Byte) : (memWrite s a v).lastPushed = s.lastPushed := by
  unfold memWrite; split <;> rfl
@[simp] theorem memWrite_draws (s : State) (a : DataAddr) (v : Byte) : (memWrite s a v).draws = s.draws := by
  unfold memWrite; split <;> rfl

theorem State.setReg_reg (s : State) (i j : Fin 32) (v : Byte) :
    (s.setReg i v).reg j = if j = i then v else s.reg j := by
  simp only [State.reg, State.setReg_x, Vector.getElem_set]
  by_cases h : j = i
  · simp [h]
  · have : ¬ i.val = j.val := fun e => h (Fin.ext e.symm)
    simp [h, this]

@[simp] theorem State.setReg_reg_self (s : State) (i : Fin 32) (v : Byte) : (s.setReg i v).reg i = v := by
  simp [State.setReg_reg]

theorem State.setReg_reg_of_ne (s : State) {i j : Fin 32} (v : Byte) (h : j ≠ i) :
    (s.setReg i v).reg j = s.reg j := by
  simp [State.setReg_reg, h]

@[simp] theorem fullReset_reg (s : State) (i : Fin 32) : (fullReset s).reg i = 0 := by
  simp [State.reg]

@[simp] theorem State.setPc_reg (s : State) (a : Byte) (j : Fin 32) : (s.setPc a).reg j = s.reg j := rfl
@[simp] theorem State.setState_reg (s : State) (f : FsmState) (j : Fin 32) : (s.setState f).reg j = s.reg j := rfl
@[simp] theorem State.pushed_reg (s : State) (v : Byte) (j : Fin 32) : (s.pushed v).reg j = s.reg j := rfl
@[simp] theorem State.popped_reg (s : State) (j : Fin 32) : (s.popped).reg j = s.reg j := rfl
@[simp] theorem fetchTransition_reg (s : State) (j : Fin 32) : (fetchTransition s).reg j = s.reg j := rfl
@[simp] theorem decodeTransition_reg (s : State) (j : Fin 32) : (decodeTransition s).reg j = s.reg j := rfl
@[simp] theorem memWrite_reg (s : State) (a : DataAddr) (v : Byte) (j : Fin 32) :
    (memWrite s a v).reg j = s.reg j := by
  simp [State.reg]

/-- A read of data memory looks at DM_SIZE and the store only. -/
theorem memRead_congr {s t : State} (hc : t.cfg = s.cfg) (hd : t.dm = s.dm) (a : DataAddr) :
    memRead t a = memRead s a := by
  simp [memRead, hc, hd]

/-- A read of program memory looks at PM_SIZE and the store only. -/
theorem pmRead_congr {s t : State} (hc : t.cfg = s.cfg) (hp : t.pm = s.pm) (a : Byte) :
    pmRead t a = pmRead s a := by
  simp [pmRead, hc, hp]

@[simp] theorem fullReset_memRead (s : State) (a : DataAddr) : memRead (fullReset s) a = 0 := by
  simp [memRead, Store.read]

@[simp] theorem State.setReg_memRead (s : State) (i : Fin 32) (v : Byte) (b : DataAddr) : memRead (s.setReg i v) b = memRead s b := rfl
@[simp] theorem State.setPc_memRead (s : State) (a : Byte) (b : DataAddr) : memRead (s.setPc a) b = memRead s b := rfl
@[simp] theorem State.setState_memRead (s : State) (f : FsmState) (b : DataAddr) : memRead (s.setState f) b = memRead s b := rfl
@[simp] theorem State.pushed_memRead (s : State) (v : Byte) (b : DataAddr) : memRead (s.pushed v) b = memRead s b := rfl
@[simp] theorem State.popped_memRead (s : State) (b : DataAddr) : memRead (s.popped) b = memRead s b := rfl
@[simp] theorem fetchTransition_memRead (s : State) (b : DataAddr) : memRead (fetchTransition s) b = memRead s b := rfl
@[simp] theorem decodeTransition_memRead (s : State) (b : DataAddr) : memRead (decodeTransition s) b = memRead s b := rfl

end Sys2Proof.Machine
end

