-- ==== Sys2Proof/Laws/Memory.lean ====
section
/-! SUPPORT. The sparse stores: read after write, and the canonical form every write keeps. -/

namespace Sys2Proof.Machine

open Sys2Proof

variable {n : Nat}

/-- A write leaves every other address reading as before, whatever form the store is in. -/
theorem Store.read_write_of_ne (m : List (Nat × BitVec n)) {a b : Nat} (v : BitVec n) (h : b ≠ a) :
    Store.read (Store.write m a v) b = Store.read m b := by
  induction m with
  | nil => by_cases hv : v = 0#n <;> simp [Store.write, Store.read, hv, h]
  | cons e rest ih =>
    obtain ⟨c, u⟩ := e
    rcases lt_trichotomy a c with hac | rfl | hac
    · by_cases hv : v = 0#n <;> simp [Store.write, Store.read, hac, hv, h]
    · by_cases hv : v = 0#n <;> simp [Store.write, Store.read, hv, h]
    · have h1 : ¬ a < c := by omega
      have h2 : ¬ a = c := by omega
      simp [Store.write, Store.read, h1, h2, ih]

/-- Raising neither the size nor the lower bound spoils the canonical form. -/
theorem Store.canonFrom_mono {size size' lo lo' : Nat} (m : List (Nat × BitVec n))
    (hs : size ≤ size') (hl : lo' ≤ lo) (h : Store.canonFrom size lo m = true) :
    Store.canonFrom size' lo' m = true := by
  induction m generalizing lo lo' with
  | nil => rfl
  | cons e rest ih =>
    obtain ⟨c, u⟩ := e
    simp only [Store.canonFrom, Bool.and_eq_true, decide_eq_true_eq] at h ⊢
    exact ⟨⟨⟨by omega, by omega⟩, h.1.2⟩, ih le_rfl h.2⟩

/-- An address below the lower bound is not listed. -/
theorem Store.read_below {size lo a : Nat} (m : List (Nat × BitVec n))
    (h : Store.canonFrom size lo m = true) (ha : a < lo) : Store.read m a = 0#n := by
  induction m generalizing lo with
  | nil => rfl
  | cons e rest ih =>
    obtain ⟨c, u⟩ := e
    simp only [Store.canonFrom, Bool.and_eq_true, decide_eq_true_eq] at h
    have hac : ¬ a = c := by omega
    simpa [Store.read, hac] using ih h.2 (by omega)

/-- In a canonical store a read after a write of the same address gives the value written. -/
theorem Store.read_write_self {size lo a : Nat} (m : List (Nat × BitVec n)) (v : BitVec n)
    (h : Store.canonFrom size lo m = true) : Store.read (Store.write m a v) a = v := by
  induction m generalizing lo with
  | nil => by_cases hv : v = 0#n <;> simp [Store.write, Store.read, hv]
  | cons e rest ih =>
    obtain ⟨c, u⟩ := e
    have hm := h
    simp only [Store.canonFrom, Bool.and_eq_true, decide_eq_true_eq] at h
    rcases lt_trichotomy a c with hac | rfl | hac
    · by_cases hv : v = 0#n
      · simpa [Store.write, hac, hv] using Store.read_below (lo := c) ((c, u) :: rest)
          (by simpa [Store.canonFrom] using ⟨⟨h.1.1.2, h.1.2⟩, h.2⟩) hac
      · simp [Store.write, Store.read, hac, hv]
    · by_cases hv : v = 0#n
      · simpa [Store.write, hv] using Store.read_below rest h.2 (by omega)
      · simp [Store.write, Store.read, hv]
    · have h1 : ¬ a < c := by omega
      have h2 : ¬ a = c := by omega
      simpa [Store.write, Store.read, h1, h2] using ih h.2

/-- A write within the size keeps the canonical form. -/
theorem Store.write_canonFrom {size lo a : Nat} (m : List (Nat × BitVec n)) (v : BitVec n)
    (h : Store.canonFrom size lo m = true) (hlo : lo ≤ a) (ha : a < size) :
    Store.canonFrom size lo (Store.write m a v) = true := by
  induction m generalizing lo with
  | nil => by_cases hv : v = 0#n <;> simp [Store.write, Store.canonFrom, hv, hlo, ha]
  | cons e rest ih =>
    obtain ⟨c, u⟩ := e
    have hm := h
    simp only [Store.canonFrom, Bool.and_eq_true, decide_eq_true_eq] at h
    rcases lt_trichotomy a c with hac | rfl | hac
    · by_cases hv : v = 0#n
      · simpa [Store.write, hac, hv] using hm
      · have hc : a + 1 ≤ c := hac
        simp [Store.write, Store.canonFrom, hac, hv, hlo, ha, hc, h]
    · by_cases hv : v = 0#n
      · simpa [Store.write, hv] using Store.canonFrom_mono rest le_rfl (by omega : lo ≤ a + 1) h.2
      · simp [Store.write, Store.canonFrom, hv, h]
    · have h1 : ¬ a < c := by omega
      have h2 : ¬ a = c := by omega
      simpa [Store.write, Store.canonFrom, h1, h2, ih h.2 (show c + 1 ≤ a by omega)] using h.1

/-- An address outside the size is not listed in a canonical store. -/
theorem Store.read_beyond {size lo a : Nat} (m : List (Nat × BitVec n))
    (h : Store.canonFrom size lo m = true) (ha : size ≤ a) : Store.read m a = 0#n := by
  induction m generalizing lo with
  | nil => rfl
  | cons e rest ih =>
    obtain ⟨c, u⟩ := e
    simp only [Store.canonFrom, Bool.and_eq_true, decide_eq_true_eq] at h
    have hac : ¬ a = c := by omega
    simpa [Store.read, hac] using ih h.2

/-- Two canonical stores that read alike at every address are the same list: the form is canonical. -/
theorem Store.ext {size lo : Nat} (m m' : List (Nat × BitVec n))
    (h : Store.canonFrom size lo m = true) (h' : Store.canonFrom size lo m' = true)
    (hr : ∀ a, Store.read m a = Store.read m' a) : m = m' := by
  induction m generalizing lo m' with
  | nil =>
    cases m' with
    | nil => rfl
    | cons e rest =>
      obtain ⟨c, u⟩ := e
      simp only [Store.canonFrom, Bool.and_eq_true, decide_eq_true_eq] at h'
      exact absurd (by simpa [Store.read] using (hr c).symm) h'.1.2
  | cons e rest ih =>
    obtain ⟨c, u⟩ := e
    have hm := h
    simp only [Store.canonFrom, Bool.and_eq_true, decide_eq_true_eq] at h
    cases m' with
    | nil => exact absurd (by simpa [Store.read] using hr c) h.1.2
    | cons e' rest' =>
      obtain ⟨c', u'⟩ := e'
      have hm' := h'
      simp only [Store.canonFrom, Bool.and_eq_true, decide_eq_true_eq] at h'
      have hcc : c = c' := by
        rcases lt_trichotomy c c' with hlt | heq | hlt
        · have hb : Store.read ((c', u') :: rest') c = 0 :=
            Store.read_below (lo := c') _
              (by simpa [Store.canonFrom] using ⟨⟨h'.1.1.2, h'.1.2⟩, h'.2⟩) hlt
          exact absurd (by simpa [Store.read, hb] using (hr c).trans hb) h.1.2
        · exact heq
        · have hb : Store.read ((c, u) :: rest) c' = 0#n :=
            Store.read_below (lo := c) _
              (by simpa [Store.canonFrom] using ⟨⟨h.1.1.2, h.1.2⟩, h.2⟩) hlt
          exact absurd (by simpa [Store.read] using (hr c').symm.trans hb) h'.1.2
      subst hcc
      have huu : u = u' := by simpa [Store.read] using hr c
      subst huu
      have hrest : rest = rest' := ih rest' h.2 h'.2 fun a => by
        by_cases hac : a = c
        · subst hac
          rw [Store.read_below rest h.2 (by omega), Store.read_below rest' h'.2 (by omega)]
        · simpa [Store.read, hac] using hr a
      rw [hrest]

/-- A data-memory write keeps the canonical form (spec/20_memory.md R56). -/
theorem memWrite_wf (s : State) (a : DataAddr) (v : Byte) (h : Memory.wf s.cfg.dmSize s.dm = true) :
    Memory.wf s.cfg.dmSize (memWrite s a v).dm = true := by
  rw [memWrite_dm]
  split
  · next ha => exact Store.write_canonFrom s.dm v h (Nat.zero_le _) ha
  · exact h

/-- A data-memory write leaves every other address reading as before. -/
theorem memRead_memWrite_of_ne (s : State) {a b : DataAddr} (v : Byte) (h : b ≠ a) :
    memRead (memWrite s a v) b = memRead s b := by
  have hn : b.toNat ≠ a.toNat := fun e => h (BitVec.eq_of_toNat_eq e)
  simp only [memRead, memWrite_cfg, memWrite_dm]
  split
  · split
    · exact Store.read_write_of_ne s.dm v hn
    · rfl
  · rfl

/-- In canonical memory a data-memory read gives back the value written at an address that exists. -/
theorem memRead_memWrite_self (s : State) (a : DataAddr) (v : Byte)
    (h : Memory.wf s.cfg.dmSize s.dm = true) (ha : a.toNat < s.cfg.dmSize) :
    memRead (memWrite s a v) a = v := by
  simp only [memRead, memWrite_cfg, memWrite_dm, if_pos ha]
  exact Store.read_write_self s.dm v h

/-- A write to an address that does not exist has no effect. -/
theorem memWrite_beyond (s : State) (a : DataAddr) (v : Byte) (ha : ¬ a.toNat < s.cfg.dmSize) :
    memWrite s a v = s := by
  simp [memWrite, ha]

/-- Memory after a reset has the canonical form. -/
theorem reset_memory_wf : Memory.wf State.reset.cfg.dmSize State.reset.dm = true := rfl

/-- The full reset leaves data memory in canonical form. -/
theorem fullReset_memory_wf (s : State) : Memory.wf (fullReset s).cfg.dmSize (fullReset s).dm = true := rfl

/-- A word placed in program memory keeps its canonical form, within the size that holds it. -/
theorem loadWord_wf (s : State) (a : Nat) (w : Word24) (h : ProgramMemory.wf s.cfg.pmSize s.pm = true) :
    ProgramMemory.wf (loadWord s a w).cfg.pmSize (loadWord s a w).pm = true :=
  Store.write_canonFrom s.pm w (Store.canonFrom_mono s.pm (Nat.le_max_left _ _) le_rfl h)
    (Nat.zero_le _) (by show a < max _ _; omega)

end Sys2Proof.Machine
end

