-- ==== Sys2Proof/Laws/Ops.lean ====
section
/-! SUPPORT. What each shared operation can do, said once: RegIndex, Push, Pop, and the outcome of an
instruction's rule. -/

namespace Sys2Proof.Machine

open Sys2Proof

/-- RegIndex answers the register an operand names, or the fault of spec/30_encoding.md R86. -/
theorem regIndex_cases (s : State) (i : Byte) :
    (∃ d, RegNames s i d ∧ regIndex s i = .ok d) ∨
      (RegBad s i ∧ regIndex s i = .error (.registerIndexOutOfRange i)) := by
  unfold regIndex
  split
  · next h => exact .inl ⟨⟨i.toNat, h⟩, .inl ⟨h, rfl⟩, rfl⟩
  · next h =>
    split
    · next hp => exact .inr ⟨⟨by omega, hp⟩, rfl⟩
    · next hp =>
      refine .inl ⟨_, .inr ⟨by omega, hp, ?_⟩, rfl⟩
      simp [BitVec.extractLsb'_toNat]

theorem RegNames.unique {s : State} {i : Byte} {d e : Fin 32} (hd : RegNames s i d) (he : RegNames s i e) :
    d = e := by
  apply Fin.ext
  rcases hd with ⟨h1, h2⟩ | ⟨h1, _, h2⟩ <;> rcases he with ⟨h3, h4⟩ | ⟨h3, _, h4⟩ <;> omega

theorem RegNames.not_bad {s : State} {i : Byte} {d : Fin 32} (hd : RegNames s i d) : ¬ RegBad s i := by
  rintro ⟨hb, hp⟩
  rcases hd with ⟨h, _⟩ | ⟨_, h, _⟩
  · omega
  · rw [hp] at h; cases h

theorem regIndex_of_names {s : State} {i : Byte} {d : Fin 32} (h : RegNames s i d) :
    regIndex s i = .ok d := by
  rcases regIndex_cases s i with ⟨e, he, hok⟩ | ⟨hb, _⟩
  · rw [hok, he.unique h]
  · exact absurd hb h.not_bad

theorem regIndex_of_bad {s : State} {i : Byte} (h : RegBad s i) :
    regIndex s i = .error (.registerIndexOutOfRange i) := by
  rcases regIndex_cases s i with ⟨e, he, _⟩ | ⟨_, herr⟩
  · exact absurd h he.not_bad
  · exact herr

/-- An operand that is not bad names a register. -/
theorem names_of_not_bad {s : State} {i : Byte} (h : ¬ RegBad s i) : ∃ d, RegNames s i d := by
  rcases regIndex_cases s i with ⟨e, he, _⟩ | ⟨hb, _⟩
  · exact ⟨e, he⟩
  · exact absurd hb h

/-- What an operand names depends on the model arguments only. -/
theorem regIndex_congr {s t : State} (h : t.cfg = s.cfg) (i : Byte) : regIndex t i = regIndex s i := by
  simp [regIndex, h]

/-- Push adds the byte, or raises StackOverflow (spec/20_memory.md R60). -/
theorem push_cases (s : State) (v : Byte) :
    (HasRoom s ∧ push s v = .ok (s.pushed v)) ∨
      (¬ HasRoom s ∧ push s v = .error (.stackOverflow v)) := by
  unfold push stackFull HasRoom
  by_cases h : s.cfg.stackCapacity = some s.stack.length <;> simp [h]

theorem push_of_room {s : State} (h : HasRoom s) (v : Byte) : push s v = .ok (s.pushed v) := by
  rcases push_cases s v with ⟨_, e⟩ | ⟨n, _⟩
  · exact e
  · exact absurd h n

theorem push_of_full {s : State} (h : ¬ HasRoom s) (v : Byte) : push s v = .error (.stackOverflow v) := by
  rcases push_cases s v with ⟨n, _⟩ | ⟨_, e⟩
  · exact absurd n h
  · exact e

/-- What a pop leaves is the sequence of bytes without its last. -/
theorem PopAnswers.rest_eq {s : State} {v : Byte} {rest : List Byte} (h : PopAnswers s v rest) :
    rest = s.stack.dropLast := by
  rcases h with h | ⟨h, _, hr⟩
  · simp [h]
  · simp [h, hr]

/-- Pop answers what spec/20_memory.md R61 says, and only shortens the stack, or raises
StackUnderflow. -/
theorem pop_cases (s : State) :
    (∃ v, PopAnswers s v s.stack.dropLast ∧ pop s = .ok (v, s.popped)) ∨
      (PopBad s ∧ pop s = .error .stackUnderflow) := by
  unfold pop
  split
  · next v hv =>
    exact .inl ⟨v, .inl (by simpa using (List.dropLast_append_getLast? v hv).symm), rfl⟩
  · next hv =>
    have hs : s.stack = [] := by simpa using hv
    have hp : s.popped = s := by
      unfold State.popped
      cases s
      simp_all
    split
    · next hu => exact .inr ⟨⟨hs, hu⟩, rfl⟩
    · next w hu => exact .inl ⟨w, .inr ⟨hs, hu, by simp [hs]⟩, by rw [hp]⟩

theorem PopAnswers.unique {s : State} {v w : Byte} {r q : List Byte} (h : PopAnswers s v r)
    (h' : PopAnswers s w q) : v = w := by
  rcases h with h | ⟨h, hu, _⟩ <;> rcases h' with h' | ⟨h', hu', _⟩
  · have := congrArg List.getLast? (h.symm.trans h')
    simpa using this
  · simp [h'] at h
  · simp [h] at h'
  · simpa using hu.symm.trans hu'

theorem PopAnswers.not_bad {s : State} {v : Byte} {r : List Byte} (h : PopAnswers s v r) : ¬ PopBad s := by
  rintro ⟨hb, hu⟩
  rcases h with h | ⟨_, h, _⟩
  · simp [hb] at h
  · rw [hu] at h; cases h

theorem pop_of_answers {s : State} {v : Byte} {r : List Byte} (h : PopAnswers s v r) :
    pop s = .ok (v, s.popped) := by
  rcases pop_cases s with ⟨w, hw, e⟩ | ⟨hb, _⟩
  · rw [e, hw.unique h]
  · exact absurd hb h.not_bad

theorem pop_of_bad {s : State} (h : PopBad s) : pop s = .error .stackUnderflow := by
  rcases pop_cases s with ⟨w, hw, _⟩ | ⟨_, e⟩
  · exact absurd h hw.not_bad
  · exact e

/-- A pop that is not bad answers a byte. -/
theorem answers_of_not_bad {s : State} (h : ¬ PopBad s) : ∃ v, PopAnswers s v s.stack.dropLast := by
  rcases pop_cases s with ⟨w, hw, _⟩ | ⟨hb, _⟩
  · exact ⟨w, hw⟩
  · exact absurd hb h

@[simp] theorem outcome_ok (s : State) : outcome (.ok s) = .next s := rfl
@[simp] theorem outcome_error (f : Fault) : outcome (.error f) = .fault f := rfl

@[simp] theorem andThen_next (s : State) (k : State → Host.Outcome State Fault Refusal) :
    andThen (.next s) k = k s := rfl
@[simp] theorem andThen_fault (f : Fault) (k : State → Host.Outcome State Fault Refusal) :
    andThen (.fault f) k = .fault f := rfl
@[simp] theorem andThen_refused (r : Refusal) (k : State → Host.Outcome State Fault Refusal) :
    andThen (.refused r) k = .refused r := rfl

/-- The two address forms never meet: the pages are distinct (spec/42_data_memory_ops.md R140). -/
theorem ioAddr_toNat (op : Byte) : (ioAddr op).toNat = op.toNat := by
  have := op.isLt
  simp only [ioAddr, BitVec.toNat_setWidth]
  omega

theorem extAddr_toNat (op : Byte) : (extAddr op).toNat = op.toNat + 256 := by
  have := op.isLt
  simp only [extAddr, BitVec.toNat_add, BitVec.toNat_setWidth]
  simp
  omega

end Sys2Proof.Machine
end

