-- ==== Sys2Proof/Laws/Exec.lean ====
section
/-! SUPPORT. What each instruction's rule does, said once: its effect where it runs, its fault where it
does not, and one inversion lemma over all instructions. -/

namespace Sys2Proof.Machine

open Sys2Proof

variable {s t : State}

theorem execLdi_of_names {r k : Byte} {d : Fin 32} (h : RegNames s r d) :
    exec (.ldi r k) s = .next (s.setReg d k) := by
  simp only [exec, execLdi, regIndex_of_names h]; rfl

theorem execMov_of_names {a b : Byte} {d r : Fin 32} (hd : RegNames s a d) (hr : RegNames s b r) :
    exec (.mov a b) s = .next (s.setReg d (s.reg r)) := by
  simp only [exec, execMov, regIndex_of_names hd, regIndex_of_names hr]; rfl

theorem execOut_of_names {a r : Byte} {d : Fin 32} (h : RegNames s r d) :
    exec (.out a r) s = .next (memWrite s (ioAddr a) (s.reg d)) := by
  simp only [exec, execOut, regIndex_of_names h]; rfl

theorem execIn_of_names {r a : Byte} {d : Fin 32} (h : RegNames s r d) :
    exec (.inp r a) s = .next (s.setReg d (memRead s (ioAddr a))) := by
  simp only [exec, execIn, regIndex_of_names h]; rfl

theorem execSts_of_names {a r : Byte} {d : Fin 32} (h : RegNames s r d) :
    exec (.sts a r) s = .next (memWrite s (extAddr a) (s.reg d)) := by
  simp only [exec, execSts, regIndex_of_names h]; rfl

theorem execLds_of_names {r a : Byte} {d : Fin 32} (h : RegNames s r d) :
    exec (.lds r a) s = .next (s.setReg d (memRead s (extAddr a))) := by
  simp only [exec, execLds, regIndex_of_names h]; rfl

theorem execCall_of_room {a : Byte} (h : HasRoom s) :
    exec (.call a) s = .next ((s.pushed s.pc).setPc a) := by
  simp only [exec, execCall, push_of_room h]; rfl

theorem execCall_of_full {a : Byte} (h : ¬ HasRoom s) :
    exec (.call a) s = .fault (.stackOverflow s.pc) := by
  simp only [exec, execCall, push_of_full h]; rfl

theorem execRet_of_answers {v : Byte} {q : List Byte} (h : PopAnswers s v q) :
    exec .ret s = .next (s.popped.setPc v) := by
  simp only [exec, execRet, pop_of_answers h]; rfl

theorem execRet_of_bad (h : PopBad s) : exec .ret s = .fault .stackUnderflow := by
  simp only [exec, execRet, pop_of_bad h]; rfl

theorem execPush_of_room {r : Byte} {d : Fin 32} (hr : RegNames s r d) (h : HasRoom s) :
    exec (.push r) s = .next (s.pushed (s.reg d)) := by
  simp only [exec, execPush, regIndex_of_names hr]
  exact congrArg outcome (push_of_room h _)

theorem execPush_of_full {r : Byte} {d : Fin 32} (hr : RegNames s r d) (h : ¬ HasRoom s) :
    exec (.push r) s = .fault (.stackOverflow (s.reg d)) := by
  simp only [exec, execPush, regIndex_of_names hr]
  exact congrArg outcome (push_of_full h _)

theorem execPop_of_answers {r v : Byte} {d : Fin 32} {q : List Byte} (hr : RegNames s r d)
    (h : PopAnswers s v q) : exec (.pop r) s = .next (s.popped.setReg d v) := by
  simp only [exec, execPop, regIndex_of_names hr, pop_of_answers h]; rfl

theorem execPop_of_bad {r : Byte} {d : Fin 32} (hr : RegNames s r d) (h : PopBad s) :
    exec (.pop r) s = .fault .stackUnderflow := by
  simp only [exec, execPop, regIndex_of_names hr, pop_of_bad h]; rfl

/-- A register operand that is outside the file under `fault` stops the instruction first, the first
such operand reported (spec/30_encoding.md R86, decision D9). -/
theorem exec_of_regBad (i : Instr) (r : Byte) (rest : List Byte)
    (hf : i.regOperands = r :: rest) (hb : RegBad s r) :
    exec i s = .fault (.registerIndexOutOfRange r) := by
  cases i <;> simp [Instr.regOperands] at hf <;> obtain ⟨rfl, _⟩ := hf <;>
    simp only [exec, execLdi, execMov, execOut, execIn, execSts, execLds, execPush, execPop,
      regIndex_of_bad hb] <;> rfl

theorem execMov_of_second_bad {a b : Byte} {d : Fin 32} (hd : RegNames s a d) (hb : RegBad s b) :
    exec (.mov a b) s = .fault (.registerIndexOutOfRange b) := by
  simp only [exec, execMov, regIndex_of_names hd, regIndex_of_bad hb]; rfl

/-- Everything a recognized instruction or an unrecognized opcode can do to reach a next state. -/
theorem exec_next_cases {i : Instr} (h : exec i s = .next t) :
    (i = .nop ∧ t = s) ∨
    (∃ r k d, i = .ldi r k ∧ RegNames s r d ∧ t = s.setReg d k) ∨
    (∃ a b d r, i = .mov a b ∧ RegNames s a d ∧ RegNames s b r ∧ t = s.setReg d (s.reg r)) ∨
    (∃ a r d, i = .out a r ∧ RegNames s r d ∧ t = memWrite s (ioAddr a) (s.reg d)) ∨
    (∃ r a d, i = .inp r a ∧ RegNames s r d ∧ t = s.setReg d (memRead s (ioAddr a))) ∨
    (∃ a r d, i = .sts a r ∧ RegNames s r d ∧ t = memWrite s (extAddr a) (s.reg d)) ∨
    (∃ r a d, i = .lds r a ∧ RegNames s r d ∧ t = s.setReg d (memRead s (extAddr a))) ∨
    (∃ a, i = .jmp a ∧ t = s.setPc a) ∨
    (∃ a, i = .call a ∧ HasRoom s ∧ t = (s.pushed s.pc).setPc a) ∨
    (∃ v, i = .ret ∧ PopAnswers s v s.stack.dropLast ∧ t = s.popped.setPc v) ∨
    (∃ r d, i = .push r ∧ RegNames s r d ∧ HasRoom s ∧ t = s.pushed (s.reg d)) ∨
    (∃ r d v, i = .pop r ∧ RegNames s r d ∧ PopAnswers s v s.stack.dropLast ∧
      t = s.popped.setReg d v) ∨
    (∃ o, i = .unrecognized o ∧ t = fullReset s) := by
  cases i with
  | nop => cases h; exact .inl ⟨rfl, rfl⟩
  | ldi r k =>
    rcases regIndex_cases s r with ⟨d, hd, _⟩ | ⟨hb, _⟩
    · rw [execLdi_of_names hd] at h; cases h
      exact .inr (.inl ⟨r, k, d, rfl, hd, rfl⟩)
    · rw [exec_of_regBad _ r [] rfl hb] at h; cases h
  | mov a b =>
    rcases regIndex_cases s a with ⟨d, hd, _⟩ | ⟨hb, _⟩
    · rcases regIndex_cases s b with ⟨r, hr, _⟩ | ⟨hb, _⟩
      · rw [execMov_of_names hd hr] at h; cases h
        exact .inr (.inr (.inl ⟨a, b, d, r, rfl, hd, hr, rfl⟩))
      · rw [execMov_of_second_bad hd hb] at h; cases h
    · rw [exec_of_regBad _ a [b] rfl hb] at h; cases h
  | out a r =>
    rcases regIndex_cases s r with ⟨d, hd, _⟩ | ⟨hb, _⟩
    · rw [execOut_of_names hd] at h; cases h
      exact .inr (.inr (.inr (.inl ⟨a, r, d, rfl, hd, rfl⟩)))
    · rw [exec_of_regBad _ r [] rfl hb] at h; cases h
  | inp r a =>
    rcases regIndex_cases s r with ⟨d, hd, _⟩ | ⟨hb, _⟩
    · rw [execIn_of_names hd] at h; cases h
      exact .inr (.inr (.inr (.inr (.inl ⟨r, a, d, rfl, hd, rfl⟩))))
    · rw [exec_of_regBad _ r [] rfl hb] at h; cases h
  | sts a r =>
    rcases regIndex_cases s r with ⟨d, hd, _⟩ | ⟨hb, _⟩
    · rw [execSts_of_names hd] at h; cases h
      exact .inr (.inr (.inr (.inr (.inr (.inl ⟨a, r, d, rfl, hd, rfl⟩)))))
    · rw [exec_of_regBad _ r [] rfl hb] at h; cases h
  | lds r a =>
    rcases regIndex_cases s r with ⟨d, hd, _⟩ | ⟨hb, _⟩
    · rw [execLds_of_names hd] at h; cases h
      exact .inr (.inr (.inr (.inr (.inr (.inr (.inl ⟨r, a, d, rfl, hd, rfl⟩))))))
    · rw [exec_of_regBad _ r [] rfl hb] at h; cases h
  | jmp a => cases h; exact .inr (.inr (.inr (.inr (.inr (.inr (.inr (.inl ⟨a, rfl, rfl⟩)))))))
  | call a =>
    by_cases hr : HasRoom s
    · rw [execCall_of_room hr] at h; cases h
      exact .inr (.inr (.inr (.inr (.inr (.inr (.inr (.inr (.inl ⟨a, rfl, hr, rfl⟩))))))))
    · rw [execCall_of_full hr] at h; cases h
  | ret =>
    rcases pop_cases s with ⟨v, hv, _⟩ | ⟨hb, _⟩
    · rw [execRet_of_answers hv] at h; cases h
      exact .inr (.inr (.inr (.inr (.inr (.inr (.inr (.inr (.inr (.inl ⟨v, rfl, hv, rfl⟩)))))))))
    · rw [execRet_of_bad hb] at h; cases h
  | push r =>
    rcases regIndex_cases s r with ⟨d, hd, _⟩ | ⟨hb, _⟩
    · by_cases hr : HasRoom s
      · rw [execPush_of_room hd hr] at h; cases h
        exact .inr (.inr (.inr (.inr (.inr (.inr (.inr (.inr (.inr (.inr (.inl
          ⟨r, d, rfl, hd, hr, rfl⟩))))))))))
      · rw [execPush_of_full hd hr] at h; cases h
    · rw [exec_of_regBad _ r [] rfl hb] at h; cases h
  | pop r =>
    rcases regIndex_cases s r with ⟨d, hd, _⟩ | ⟨hb, _⟩
    · rcases pop_cases s with ⟨v, hv, _⟩ | ⟨hp, _⟩
      · rw [execPop_of_answers hd hv] at h; cases h
        exact .inr (.inr (.inr (.inr (.inr (.inr (.inr (.inr (.inr (.inr (.inr (.inl
          ⟨r, d, v, rfl, hd, hv, rfl⟩)))))))))))
      · rw [execPop_of_bad hd hp] at h; cases h
    · rw [exec_of_regBad _ r [] rfl hb] at h; cases h
  | unrecognized o =>
    cases h
    exact .inr (.inr (.inr (.inr (.inr (.inr (.inr (.inr (.inr (.inr (.inr (.inr ⟨o, rfl, rfl⟩)))))))))))

end Sys2Proof.Machine
end

