-- ==== Sys2Proof/Laws/Cycle.lean ====
section
/-! SUPPORT. The transitions and the full-cycle-step: what a single-step can do, and the full-cycle-step
from each FSM state. -/

namespace Sys2Proof.Machine

open Sys2Proof

variable {s t : State}

theorem singleStep_fetch (h : s.state = .fetch) : singleStep s = .next (fetchTransition s) := by
  simp [singleStep, h]

theorem singleStep_decode (h : s.state = .decode) : singleStep s = .next (decodeTransition s) := by
  simp [singleStep, h]

theorem singleStep_execute (h : s.state = .execute) : singleStep s = executeTransition s := by
  simp [singleStep, h]

theorem singleStep_invalid (h : s.state = .invalid) : singleStep s = .next (fullReset s) := by
  simp [singleStep, h]

/-- Everything a single-step that ends in a next state can have been. -/
theorem singleStep_cases (h : singleStep s = .next t) :
    (s.state = .fetch ∧ t = fetchTransition s) ∨
    (s.state = .decode ∧ t = decodeTransition s) ∨
    (s.state = .execute ∧ ∃ u, exec (decodedInstr s) s = .next u ∧ t = u.setState .fetch) ∨
    (s.state = .invalid ∧ t = fullReset s) := by
  cases hs : s.state with
  | fetch => rw [singleStep_fetch hs] at h; cases h; exact .inl ⟨rfl, rfl⟩
  | decode => rw [singleStep_decode hs] at h; cases h; exact .inr (.inl ⟨rfl, rfl⟩)
  | execute =>
    rw [singleStep_execute hs, executeTransition] at h
    cases he : exec (decodedInstr s) s with
    | next u => rw [he] at h; cases h; exact .inr (.inr (.inl ⟨rfl, u, rfl, rfl⟩))
    | fault f => rw [he] at h; cases h
    | refused r => rw [he] at h; cases h
  | invalid => rw [singleStep_invalid hs] at h; cases h; exact .inr (.inr (.inr ⟨rfl, rfl⟩))

/-- The two transitions before EXECUTE, in one. -/
theorem decode_fetch_eq (s : State) : decodeTransition (fetchTransition s) = inExecute s := rfl

theorem andThen_eta (o : Host.Outcome State Fault Refusal) : andThen o (fun t => .next t) = o := by
  cases o <;> rfl

theorem cycleLoop_execute (n : Nat) (h : s.state = .execute) : cycleLoop (n + 1) s = singleStep s := by
  simp only [cycleLoop, h, if_true]
  exact andThen_eta _

theorem cycleLoop_decode (n : Nat) (h : s.state = .decode) :
    cycleLoop (n + 2) s = singleStep (decodeTransition s) := by
  rw [cycleLoop, singleStep_decode h]
  simp only [andThen_next, h]
  exact cycleLoop_execute n rfl

theorem cycleLoop_fetch (n : Nat) (h : s.state = .fetch) :
    cycleLoop (n + 3) s = singleStep (inExecute s) := by
  rw [cycleLoop, singleStep_fetch h]
  simp only [andThen_next, h]
  exact cycleLoop_decode n rfl

theorem step_fetch (h : s.state = .fetch) : step s = singleStep (inExecute s) := cycleLoop_fetch 1 h

theorem step_decode (h : s.state = .decode) : step s = singleStep (decodeTransition s) :=
  cycleLoop_decode 2 h

theorem step_execute (h : s.state = .execute) : step s = singleStep s := cycleLoop_execute 3 h

theorem step_invalid (h : s.state = .invalid) : step s = singleStep (inExecute (fullReset s)) := by
  rw [step, fullCycleStep, cycleLoop, singleStep_invalid h]
  simp only [andThen_next, h]
  exact cycleLoop_fetch 0 rfl

/-- A step from FETCH runs the fetched instruction and returns to FETCH. -/
theorem step_fetch_exec (h : s.state = .fetch) :
    step s = andThen (exec (decode (pmRead s s.pc)) (inExecute s)) fun t => .next (t.setState .fetch) := by
  rw [step_fetch h, singleStep_execute rfl]; rfl

end Sys2Proof.Machine
end

