-- ==== Sys2Proof/Laws/PerInstr.lean ====
section
/-! SUPPORT. Statements made per instruction. The family `EncodedFields`: the word of an instruction
holds its opcode and its operands in the fields of spec/30_encoding.md R80. -/

namespace Sys2Proof.Laws.EncodedFields

open Sys2Proof

/-- The three fields of the instruction's word. -/
def Statement (i : Instr) : Prop :=
  fieldOpcode (encode i) = i.opcode ∧ fieldOp1 (encode i) = i.operand1 ∧
    fieldOp2 (encode i) = i.operand2

theorem of_encode (i : Instr) : Statement i := by
  simp [Statement, encode]

theorem nop : Statement .nop := of_encode _
theorem ldi (reg const : Byte) : Statement (.ldi reg const) := of_encode _
theorem mov (dst src : Byte) : Statement (.mov dst src) := of_encode _
theorem out (ioaddr reg : Byte) : Statement (.out ioaddr reg) := of_encode _
theorem inp (reg ioaddr : Byte) : Statement (.inp reg ioaddr) := of_encode _
theorem sts (addr reg : Byte) : Statement (.sts addr reg) := of_encode _
theorem lds (reg addr : Byte) : Statement (.lds reg addr) := of_encode _
theorem jmp (addr : Byte) : Statement (.jmp addr) := of_encode _
theorem call (addr : Byte) : Statement (.call addr) := of_encode _
theorem ret : Statement .ret := of_encode _
theorem push (reg : Byte) : Statement (.push reg) := of_encode _
theorem pop (reg : Byte) : Statement (.pop reg) := of_encode _
theorem unrecognized (opcode : Byte) : Statement (.unrecognized opcode) := of_encode _

end Sys2Proof.Laws.EncodedFields
end

