-- ==== Sys2Proof/Laws/Ports.lean ====
section
/-! SUPPORT. The states in which a full-cycle-step's transitions start, from each FSM state, and what an
access does to the stores. -/

namespace Sys2Proof.Machine

open Sys2Proof

variable {s t : State}

/-- The loop goes on from the next state of a transition that did not start in EXECUTE. -/
theorem cycleStarts_next (n : Nat) (h : singleStep s = .next t) (he : s.state ≠ .execute) :
    cycleStarts (n + 1) s = s :: cycleStarts n t := by
  simp only [cycleStarts, h, if_neg he]

theorem cycleStarts_execute (n : Nat) (h : s.state = .execute) : cycleStarts (n + 1) s = [s] := by
  simp only [cycleStarts, h, if_true]
  cases singleStep s <;> rfl

theorem cycleStarts_decode (n : Nat) (h : s.state = .decode) :
    cycleStarts (n + 2) s = [s, decodeTransition s] := by
  rw [cycleStarts_next _ (singleStep_decode h) (by simp [h]), cycleStarts_execute _ rfl]

theorem cycleStarts_fetch (n : Nat) (h : s.state = .fetch) :
    cycleStarts (n + 3) s = [s, fetchTransition s, inExecute s] := by
  rw [cycleStarts_next _ (singleStep_fetch h) (by simp [h]), cycleStarts_decode _ rfl]; rfl

theorem cycleStarts_invalid (n : Nat) (h : s.state = .invalid) :
    cycleStarts (n + 4) s =
      [s, fullReset s, fetchTransition (fullReset s), inExecute (fullReset s)] := by
  rw [cycleStarts_next _ (singleStep_invalid h) (by simp [h]), cycleStarts_fetch _ rfl]

/-- The tag changes no outcome. -/
@[simp] theorem taggedStep_untagged (s : State) : (taggedStep s).untagged = singleStep s := by
  unfold taggedStep
  cases singleStep s with
  | next t => cases resetCause s <;> rfl
  | fault f => rfl
  | refused r => rfl

@[simp] theorem accessIf_ok {α : Type} (a : α) (k : α → List PortAccess) : accessIf (.ok a) k = k a := rfl
@[simp] theorem accessIf_error {α : Type} (f : Fault) (k : α → List PortAccess) :
    accessIf (.error f) k = [] := rfl

end Sys2Proof.Machine
end

