-- ==== Sys2Proof/Tests/Slice0.lean ====
section
/-! SUPPORT. Tests: the WellFormed smoke, the decoding of words written out from the spec's encodings,
the vectors of spec/95_test_vectors.md one step at a time, and a witness for the hypotheses of each
statement. Expected results are the spec's, none is the model's own answer. -/

namespace Sys2Proof.Tests

open Sys2Proof Sys2Proof.Machine

/-! ## WellFormed -/

/-- spec/30_encoding.md R83, R85: 0x0B is POP, so it is no unrecognized opcode; 0x0C is. -/
theorem test_wf_refuses_named_opcode : WellFormed (.unrecognized 0x0B) = false := by decide
theorem test_wf_accepts_unrecognized : WellFormed (.unrecognized 0x0C) = true := by decide

/-- spec/10_state.md R33, spec/30_encoding.md R86: 31 is the last register, 32 is none. -/
theorem test_reg_range_refuses_32 : RegOperandsInRange (.mov 31 32) = false := by decide
theorem test_reg_range_accepts_31 : RegOperandsInRange (.mov 31 0) = true := by decide

/-- spec/92_eei_decisions.md D5: the named I/O registers are pairwise distinct. -/
theorem test_config_refuses_equal_io : configOk { Config.standard with inAddr := 1 } = false := by decide

/-! ## Decoding: the bit patterns of the instruction rules' Encoding lines -/

theorem test_decode_nop : decode 0b00000000_11111111_11111111 = .nop := by decide
theorem test_decode_ldi : decode 0b00000001_00010000_00000100 = .ldi 16 4 := by decide
theorem test_decode_mov : decode 0b00000010_00000111_00000011 = .mov 7 3 := by decide
theorem test_decode_out : decode 0b00000011_00100000_00010000 = .out 0x20 16 := by decide
theorem test_decode_in : decode 0b00000100_00000010_00100000 = .inp 2 0x20 := by decide
theorem test_decode_sts : decode 0b00000101_00000101_00000011 = .sts 5 3 := by decide
theorem test_decode_lds : decode 0b00000110_00001001_00000101 = .lds 9 5 := by decide
theorem test_decode_jmp : decode 0b00000111_00001010_10101011 = .jmp 0x0A := by decide
theorem test_decode_call : decode 0b00001000_00100000_00000000 = .call 0x20 := by decide
theorem test_decode_ret : decode 0b00001001_00000000_00000000 = .ret := by decide
theorem test_decode_push : decode 0b00001010_00010100_00000000 = .push 20 := by decide
theorem test_decode_pop : decode 0b00001011_00000101_00000000 = .pop 5 := by decide
theorem test_decode_unrecognized : decode 0b11111111_11111111_11111111 = .unrecognized 0xFF := by decide
theorem test_decode_table_word : decodeTableWord 24 0x011004 = some (.ldi 16 4) := by decide

/-- spec/95_test_vectors.md §2.7: the opcode byte comes first (D17). -/
theorem test_decode_bytes : decodeBytes [0x05, 0x05, 0x03, 0x0B] = .ok (.sts 5 3, [0x0B]) := by decide
theorem test_decode_bytes_truncated : decodeBytes [0x05, 0x05] = .error (.truncated [0x05, 0x05]) := by decide

/-! ## States and readings of outcomes -/

/-- A state in EXECUTE with some registers, data bytes and stack entries. -/
def execState : State :=
  { State.reset with
    state := .execute
    pc := 0x11
    mar := 0x10
    x := ((Vector.replicate 32 0).set 3 0x5A).set 16 0x04
    dm := [(0x005, 0x66), (0x020, 0x04), (0x105, 0x77)]
    stack := [0x3C]
    lastPushed := 0x3C }

def maskState : State := { execState with cfg := { Config.standard with regIndexPolicy := .mask5 } }
def fullState : State := { execState with cfg := { Config.standard with stackCapacity := some 1 } }
def emptyState : State := { execState with stack := [] }
def underflowState : State :=
  { emptyState with cfg := { Config.standard with stackUnderflow := .value 0xEE } }
def smallState : State := { execState with cfg := { Config.standard with dmSize := 300 } }
def narrowState : State := { execState with cfg := { Config.standard with dmSize := 200 } }
def fetching (w : Nat) : State := { State.reset with pc := 0x10 }.withFetchWord 24 w

def reading {α : Type} (o : Host.Outcome State Fault Refusal) (f : State → α) : Option α :=
  match o with
  | .next s => some (f s)
  | .fault _ => none
  | .refused _ => none

def faultOf (o : Host.Outcome State Fault Refusal) : Option Fault :=
  match o with
  | .next _ => none
  | .fault f => some f
  | .refused _ => none

/-! ## spec/95_test_vectors.md §2.1 -/

theorem test_F1_fetch : reading (singleStep (fetching 0x011004)) (fun s => (s.ir, s.mar, s.pc, s.opc, s.state))
    = some (0x011004, 0x10, 0x11, 0, .decode) := by decide
theorem test_F9_fetch_wraps : reading (singleStep { State.reset with pc := 0xFF }) (fun s => (s.mar, s.pc))
    = some (0xFF, 0x00) := by decide
theorem test_F10_decode : reading (singleStep { State.reset with state := .decode, ir := 0xABCDEF })
    (fun s => (s.opc, s.op1, s.op2, s.state)) = some (0xAB, 0xCD, 0xEF, .execute) := by decide
theorem test_F8_cycle_from_invalid :
    reading (step { (fetching 0x000000).withFetchWord 24 0x000000 with state := .invalid })
      (fun s => (s.state, s.pc)) = some (.fetch, 1) := by decide

/-! ## spec/95_test_vectors.md §2.2 to §2.6 -/

theorem test_G2_nop : reading (step (fetching 0x00FFFF)) (fun s => (s.pc, s.mar, s.ir, s.op2, s.state))
    = some (0x11, 0x10, 0x00FFFF, 0xFF, .fetch) := by decide
theorem test_G4_ldi : reading (step (fetching 0x011FFF)) (fun s => (s.reg 31, s.reg 0)) = some (0xFF, 0) := by decide
theorem test_G6_ldi_mask5 : reading (exec (.ldi 32 0xAA) maskState) (fun s => s.reg 0) = some 0xAA := by decide
theorem test_G7_mov : reading (exec (.mov 7 3) execState) (fun s => (s.reg 7, s.reg 3)) = some (0x5A, 0x5A) := by decide
theorem test_G11_mov_reports_op1 : faultOf (exec (.mov 33 255) execState) = some (.registerIndexOutOfRange 33) := by decide
theorem test_M1_out : reading (exec (.out 0xFF 16) execState) (fun s => (memRead s 0x0FF, memRead s 0x1FF))
    = some (0x04, 0) := by decide
theorem test_M11_out_fault : faultOf (exec (.out 0x20 32) execState) = some (.registerIndexOutOfRange 32) := by decide
theorem test_M4_in : reading (exec (.inp 2 0x20) execState) (fun s => s.reg 2) = some 0x04 := by decide
theorem test_M5_in_unwritten : reading (exec (.inp 3 0xFF) execState) (fun s => s.reg 3) = some 0 := by decide
theorem test_M8_sts_no_wrap : reading (exec (.sts 0xFF 3) execState) (fun s => (memRead s 0x1FF, memRead s 0x0FF))
    = some (0x5A, 0) := by decide
theorem test_M13_sts_dropped : reading (exec (.sts 0xFF 3) smallState) (fun s => (s.dm, s.pc))
    = some (smallState.dm, 0x11) := by decide
theorem test_M9_lds : reading (exec (.lds 9 0x05) execState) (fun s => s.reg 9) = some 0x77 := by decide
theorem test_M14_lds_default : reading (exec (.lds 16 0xFF) smallState) (fun s => s.reg 16) = some 0 := by decide
theorem test_T4_jmp : reading (step (fetching 0x07FFAB)) (fun s => s.pc) = some 0xFF := by decide
theorem test_T7_call : reading (exec (.call 0x30) execState) (fun s => (s.stack, s.pc, stackTop s))
    = some ([0x3C, 0x11], 0x30, 0x11) := by decide
theorem test_T11_call_overflow : faultOf (exec (.call 0) fullState) = some (.stackOverflow 0x11) := by decide
theorem test_T8_ret : reading (exec .ret execState) (fun s => (s.stack, s.pc, stackTop s)) = some ([], 0x3C, 0x3C) := by decide
theorem test_T9_ret_underflow : faultOf (exec .ret emptyState) = some .stackUnderflow := by decide
theorem test_S1_push : reading (exec (.push 3) execState) (fun s => (s.stack, stackTop s, s.reg 3))
    = some ([0x3C, 0x5A], 0x5A, 0x5A) := by decide
theorem test_S7_push_index_first : faultOf (exec (.push 33) fullState) = some (.registerIndexOutOfRange 33) := by decide
theorem test_S2_pop : reading (exec (.pop 5) execState) (fun s => (s.reg 5, s.stack, stackTop s))
    = some (0x3C, [], 0x3C) := by decide
theorem test_S4_pop_value : reading (exec (.pop 5) underflowState) (fun s => (s.reg 5, s.stack)) = some (0xEE, []) := by decide
theorem test_X3_reset_first : reading (step (fetching 0x0C2000)) (fun s => (s.pc, s.mar, s.ir, s.state, s.stack))
    = some (0, 0, 0, .fetch, []) := by decide
theorem test_X1_reset_clears : reading (exec (.unrecognized 0x0C) execState) (fun s => (s.reg 3, memRead s 0x20, s.dm))
    = some (0, 0, []) := by decide
theorem test_P4_tag : taggedStep { execState with opc := 0xFF, mar := 3 }
    = .reset (.unrecognizedOpcode 0xFF 3) (fullReset { execState with opc := 0xFF, mar := 3 }) := rfl

/-! ## Host interface -/

theorem test_boot_fetches_at_zero : reading (singleStep State.reset) (fun s => (s.mar, s.ir)) = some (0, 0) := by decide
theorem test_cycle_req_ports : requestAccesses .fullCycleStep (fetching 0x081100) =
    [.pmRead 0x10 0x081100, .stkPush 0x11] := by decide
theorem test_cycle_req_fault : requestAccesses .fullCycleStep (fetching 0x090000) = [.pmRead 0x10 0x090000] ∧
    (requestTags .fullCycleStep (fetching 0x090000)).getLast? = some (.fault .stackUnderflow) := ⟨by decide, rfl⟩
theorem test_snapshot_mnemonic : (snapshot { execState with opc := 0x08 }).mnemonic = "CALL" := rfl
theorem test_snapshot_unknown : (snapshot execState).subroutine = "Unknown" := rfl
theorem test_snapshot_io : (snapshot { execState with cfg := { Config.standard with namedIo := [0x20] } }).namedIo =
    [(0, 0), (1, 0), (2, 0), (0x20, 0x04)] := by decide
theorem test_text : asmText (.ldi 16 4) = some "LDI R16, 4" := by decide
theorem test_assemble : assemble [⟨none, .call, [.label "f"]⟩, ⟨some "f", .ldi, [.reg 16, .num 4]⟩]
    = some [0x080100, 0x011004] := by decide

/-! ## Witnesses: states and operands that meet the hypotheses of the statements -/

/-- The register forms: below 32, at 31, past it under `mask5`, and past it under `fault`. -/
theorem witness_register_operands :
    RegNames execState 0 0 ∧ RegNames execState 31 31 ∧ RegNames maskState 32 0 ∧ RegNames maskState 255 31 ∧
      RegBad execState 32 ∧ RegBad execState 255 ∧ ¬ RegBad execState 31 := by
  unfold RegNames RegBad; decide

/-- PushPopContract, and the stack forms: room, none, a byte on top, the value of the policy, and neither. -/
theorem witness_stack_forms :
    HasRoom execState ∧ ¬ HasRoom fullState ∧ PopAnswers execState 0x3C [] ∧
      PopAnswers underflowState 0xEE [] ∧ PopBad emptyState := by
  unfold HasRoom PopAnswers PopBad; decide

/-- LdiLoadsConstant, InLoadsFromIoPage, LdsLoadsFromExtendedPage, OutStoresToIoPage,
StsStoresToExtendedPage: an index in range, one masked, one refused. -/
theorem witness_LdiLoadsConstant : RegNames maskState 0xFF 31 ∧ (∃ t, exec (.ldi 0xFF 1) maskState = .next t) ∧
    RegBad execState 0xFF := ⟨witness_register_operands.2.2.2.1, ⟨_, rfl⟩, witness_register_operands.2.2.2.2.2.1⟩
theorem witness_InLoadsFromIoPage : RegNames execState 31 31 ∧ (∃ t, exec (.inp 31 0xFF) execState = .next t) ∧
    RegBad execState 32 := ⟨witness_register_operands.2.1, ⟨_, rfl⟩, witness_register_operands.2.2.2.2.1⟩
theorem witness_LdsLoadsFromExtendedPage : RegNames execState 31 31 ∧
    (∃ t, exec (.lds 31 0xFF) execState = .next t) ∧ RegBad execState 32 :=
  ⟨witness_register_operands.2.1, ⟨_, rfl⟩, witness_register_operands.2.2.2.2.1⟩
theorem witness_MovCopiesRegister : RegNames execState 31 31 ∧ RegNames execState 0 0 ∧
    (∃ t, exec (.mov 31 0) execState = .next t) ∧ RegBad execState 32 ∧ ¬ RegBad execState 31 :=
  ⟨witness_register_operands.2.1, witness_register_operands.1, ⟨_, rfl⟩, witness_register_operands.2.2.2.2.1,
    witness_register_operands.2.2.2.2.2.2⟩
theorem witness_OutStoresToIoPage : RegNames execState 31 31 ∧ (∃ t, exec (.out 0xFF 31) execState = .next t) ∧
    Memory.wf execState.cfg.dmSize execState.dm = true ∧ (0xFF : Byte).toNat < execState.cfg.dmSize ∧
    RegBad execState 32 ∧ ({ execState with cfg := { Config.standard with dmSize := 255 } } : State).cfg.dmSize ≤ (0xFF : Byte).toNat :=
  ⟨witness_register_operands.2.1, ⟨_, rfl⟩, by decide, by decide, witness_register_operands.2.2.2.2.1, by decide⟩
theorem witness_StsStoresToExtendedPage : RegNames execState 31 31 ∧ (∃ t, exec (.sts 0xFF 31) execState = .next t) ∧
    Memory.wf execState.cfg.dmSize execState.dm = true ∧ (0xFF : Byte).toNat + 256 < execState.cfg.dmSize ∧
    RegBad execState 32 ∧ smallState.cfg.dmSize ≤ (44 : Byte).toNat + 256 :=
  ⟨witness_register_operands.2.1, ⟨_, rfl⟩, by decide, by decide, witness_register_operands.2.2.2.2.1, by decide⟩
theorem witness_JmpSetsPc : ∃ t, exec (.jmp 0xFF) execState = .next t := ⟨_, rfl⟩
theorem witness_CallPushesReturnAddress : HasRoom execState ∧ (∃ t, exec (.call 0) execState = .next t) ∧
    ¬ HasRoom fullState ∧ (fetching 0x08C800).state = .fetch ∧
    decode (pmRead (fetching 0x08C800) (fetching 0x08C800).pc) = .call 0xC8 ∧
    (∃ t, step (fetching 0x08C800) = .next t) :=
  ⟨witness_stack_forms.1, ⟨_, rfl⟩, witness_stack_forms.2.1, rfl, by decide, ⟨_, rfl⟩⟩
theorem witness_RetPopsPc : PopAnswers execState 0x3C [] ∧ (∃ t, exec .ret execState = .next t) ∧
    PopAnswers underflowState 0xEE [] ∧ PopBad emptyState :=
  ⟨witness_stack_forms.2.2.1, ⟨_, rfl⟩, witness_stack_forms.2.2.2.1, witness_stack_forms.2.2.2.2⟩
theorem witness_PushPushesRegister : RegNames execState 31 31 ∧ HasRoom execState ∧
    (∃ t, exec (.push 31) execState = .next t) ∧ RegBad execState 32 ∧ RegNames fullState 0 0 ∧ ¬ HasRoom fullState :=
  ⟨witness_register_operands.2.1, witness_stack_forms.1, ⟨_, rfl⟩, witness_register_operands.2.2.2.2.1,
    witness_register_operands.1, witness_stack_forms.2.1⟩
theorem witness_PopPopsIntoRegister : RegNames execState 31 31 ∧ PopAnswers execState 0x3C [] ∧
    (∃ t, exec (.pop 31) execState = .next t) ∧ RegBad execState 32 ∧ RegNames emptyState 0 0 ∧ PopBad emptyState ∧
    HasRoom execState :=
  ⟨witness_register_operands.2.1, witness_stack_forms.2.2.1, ⟨_, rfl⟩, witness_register_operands.2.2.2.2.1,
    witness_register_operands.1, witness_stack_forms.2.2.2.2, witness_stack_forms.1⟩
theorem witness_NopHasNoEffect : (fetching 0x00FFFF).state = .fetch ∧
    decode (pmRead (fetching 0x00FFFF) (fetching 0x00FFFF).pc) = .nop := by decide
theorem witness_UnrecognizedOpcodeResets : (∀ m : Mnemonic, (0x0C : Byte) ≠ m.opcode) ∧
    (fetching 0x0C2000).state = .fetch ∧ pmRead (fetching 0x0C2000) (fetching 0x0C2000).pc = joinFields 0x0C 0x20 0 :=
  ⟨fun m => by cases m <;> decide, by decide⟩

/-- The encodings: each family's well-formed terms, a table row at both ends of the unrecognized space. -/
theorem witness_DecodeOfEncodeIsIdentity : WellFormed (.pop 0xFF) = true ∧ WellFormed (.unrecognized 0xFF) = true := by decide
theorem witness_OpcodeFieldSelectsInstruction : 0x0C ≤ (0x0C : Byte).toNat ∧ 0x0C ≤ (0xFF : Byte).toNat := by decide
theorem witness_AssembledLineIsEncoding : (Instr.mov 31 0).mnemonic ≠ none ∧ RegOperandsInRange (.mov 31 0) = true := by decide
theorem witness_LoadedImageIsWhatIsFetched :
    ∃ c', loadBytes Config.standard (([0x011004, 0x000000, 0x090000] : List Word24).flatMap bytesOfWord) [] = .ok c' := ⟨_, rfl⟩

/-- The FSM states: FetchReadsAtPcAndIncrements, DecodeExtractsFields, EveryInstructionTakesThreeTransitions,
FullCycleEndsAfterExecute and the first clause of InvalidStateResets; the others with what they ask beside it. -/
theorem witness_fsm_states : State.reset.state = .fetch ∧ ({ State.reset with state := .decode } : State).state = .decode ∧
    execState.state = .execute ∧ ({ execState with state := .invalid } : State).state = .invalid := by decide
theorem witness_ExecuteDispatchesOnOpcode : execState.state = .execute ∧
    ({ execState with opc := 0x0B } : State).opc = Mnemonic.pop.opcode ∧
    (∃ t, exec (decodeFields 0x0B 0 0) execState = .next t) ∧ (∃ f, exec (decodeFields 0x0B 0 0) emptyState = .fault f) ∧
    ∀ m : Mnemonic, ({ execState with opc := 0x0C } : State).opc ≠ m.opcode :=
  ⟨rfl, rfl, ⟨_, rfl⟩, ⟨_, rfl⟩, fun m => by cases m <;> decide⟩
theorem witness_StepRunsDecodedInstruction : (fetching 0x070A00).state = .fetch ∧
    decode (pmRead (fetching 0x070A00) (fetching 0x070A00).pc) = .jmp 0x0A ∧
    ∃ t, exec (.jmp 0x0A) (inExecute (fetching 0x070A00)) = .next t := ⟨rfl, by decide, ⟨_, rfl⟩⟩
theorem witness_OutcomeTagIsObservational : execState.state = .execute ∧
    0x0C ≤ ({ execState with opc := 0x0C } : State).opc.toNat ∧ ({ execState with opc := 0x0B } : State).opc.toNat < 0x0C := by decide
theorem witness_ConditionPriority : ({ fullState with opc := 0x0A, op1 := 32 } : State).opc = Mnemonic.push.opcode ∧
    RegBad { fullState with opc := 0x0A, op1 := 32 } 32 ∧ ({ emptyState with opc := 0x0B, op1 := 32 } : State).opc = Mnemonic.pop.opcode ∧
    RegBad { execState with opc := 0x02, op1 := 33, op2 := 255 } 33 ∧
    RegBad { execState with opc := 0x02, op1 := 33, op2 := 255 } 255 := by
  unfold RegBad; decide
theorem witness_ModelFaultsByCause : ({ emptyState with opc := 0x09 } : State).state = .execute ∧
    decodedInstr { emptyState with opc := 0x09 } = .ret ∧ exec .ret { emptyState with opc := 0x09 } = .fault .stackUnderflow :=
  ⟨rfl, by decide, rfl⟩
theorem witness_EveryInstructionRunsExactlyWhereSafe : RunsSafely (.pop 31) execState ∧ ¬ RunsSafely (.pop 31) emptyState := by
  unfold RunsSafely RegsOk RegBad PopBad; decide
theorem witness_ConditionsAreClassified :
    conditionOf { execState with opc := 0x0C } = some .unrecognizedOpcode ∧
    conditionOf { execState with state := .invalid } = some .unrecognizedState ∧
    (conditionOf (({ fetching 0 with cfg := { Config.standard with pmSize := 16 } } : State))).map Condition.code = some 3 ∧
    (conditionOf { narrowState with opc := 0x03, op1 := 200, op2 := 3 }).map Condition.code = some 3 ∧
    conditionOf { narrowState with opc := 0x03, op1 := 199, op2 := 3 } = none ∧
    (conditionOf { narrowState with opc := 0x04, op1 := 3, op2 := 200 }).map Condition.code = some 3 ∧
    (conditionOf { smallState with opc := 0x05, op1 := 44, op2 := 3 }).map Condition.code = some 3 ∧
    (conditionOf { smallState with opc := 0x06, op1 := 3, op2 := 44 }).map Condition.code = some 3 ∧
    conditionOf { smallState with opc := 0x06, op1 := 3, op2 := 43 } = none ∧
    conditionOf { execState with opc := 0x01, op1 := 32 } = some .registerIndex ∧
    conditionOf { fullState with opc := 0x08 } = some .stackFull ∧
    conditionOf { emptyState with opc := 0x09 } = some .stackEmpty ∧ conditionOf execState = none := by decide

/-- Reset, boot, stores, invariants. -/
theorem witness_ResetStateIsZero : resetCause (inExecute (bootState Config.standard)) = none ∧
    ∃ t, step (bootState Config.standard) = .next t := ⟨by decide, ⟨_, rfl⟩⟩
theorem witness_ResetIsUniformAndIdempotent : ({ execState with opc := 0x0C } : State).state = .execute ∧
    0x0C ≤ ({ execState with opc := 0x0C } : State).opc.toNat := by decide
theorem witness_UnrecognizedAtZeroLoopsForever : (State.reset.withFetchWord 24 0xFF0000).state = .fetch ∧
    (State.reset.withFetchWord 24 0xFF0000).pc = 0 ∧
    (State.reset.withFetchWord 24 0xFF0000).pm = (State.reset.withFetchWord 24 0xFF0000).cfg.image.words ∧
    decode (pmRead (State.reset.withFetchWord 24 0xFF0000) 0) = .unrecognized 0xFF := by decide
theorem witness_ProgramReadContract : ProgramMemory.wf (fetching 0x070A00).cfg.pmSize (fetching 0x070A00).pm = true ∧
    (0x10, 0x070A00) ∈ (fetching 0x070A00).pm ∧ (∀ w, ((0xFF : Byte).toNat, w) ∉ (fetching 0x070A00).pm) ∧
    ({ fetching 0x070A00 with cfg := { Config.standard with pmSize := 17 } } : State).cfg.pmSize ≤ (17 : Byte).toNat ∧
    ProgramMemory.wf 17 (fetching 0x070A00).pm = true := by
  refine ⟨by decide, by decide, fun w h => ?_, by decide, by decide⟩
  simp [fetching, State.withFetchWord, placeInstr, loadWord, State.reset, Store.write, tableWord] at h
theorem witness_StackIsLastInFirstOut : ∀ c, fullState.cfg.stackCapacity = some c → fullState.stack.length + ([] : List Byte).length ≤ c := by
  intro c h; cases h; decide
theorem witness_CallThenRetReturns :
    let s := ({ fetching 0x08C800 with pc := 0xC8 }.withFetchWord 24 0x090000).setPc 0x10
    s.state = .fetch ∧ HasRoom s ∧ decode (pmRead s s.pc) = .call 0xC8 ∧ decode (pmRead s 0xC8) = .ret := by
  unfold HasRoom; decide
theorem witness_StoreThenLoadReturnsValue : RegNames execState 31 31 ∧ RegNames execState 0 0 ∧
    Memory.wf execState.cfg.dmSize execState.dm = true ∧ 512 ≤ execState.cfg.dmSize :=
  ⟨witness_register_operands.2.1, witness_register_operands.1, by decide, by decide⟩
theorem witness_OneCollaboratorAccessPerTransition : resetCause execState = none ∧
    resetCause { execState with opc := 0xFF } = some (.unrecognizedOpcode 0xFF 0x10) ∧
    singleStep { emptyState with opc := 0x09 } = .fault .stackUnderflow := ⟨by decide, by decide, rfl⟩
theorem witness_InvariantHoldsAtReset : configOk { Config.standard with stackCapacity := some 0 } = true := by decide

/-- A state the invariant holds of, in EXECUTE, with a stack, data and a decoded CALL. -/
def invState : State :=
  { (fetching 0x08C800) with
    state := .execute, ir := 0x08C800, mar := 0x10, pc := 0x11, opc := 0x08, op1 := 0xC8, op2 := 0,
    dm := [(511, 1)], stack := [7] }
/-- HostRequestsKeepInvariant's witness too. -/
theorem witness_StepKeepsInvariant : Inv invState ∧ (∃ t, step invState = .next t) ∧
    (∃ t, serve .singleStep invState = .next t) := by
  refine ⟨⟨by decide, by decide, by decide, by decide, by decide, ?_, by decide, by decide⟩, ⟨_, rfl⟩, ⟨_, rfl⟩⟩
  intro c h; cases h
theorem witness_StepSafeExactlyWhereInstructionIs : (fetching 0x0B2000).state = .fetch := by decide
theorem witness_ProgramMemoryNeverChanges : (fetching 0x070A00).pm = (fetching 0x070A00).cfg.image.words ∧
    ∃ t, serve .fullCycleStep (fetching 0x070A00) = .next t := ⟨by decide, ⟨_, rfl⟩⟩
/-- Also the transitions of PortAccessesAccountForStores and of InvalidStateResets. -/
theorem witness_StatusRegisterOnlyReset : (∃ t, singleStep { execState with sr := 0x3F } = .next t) ∧
    resetCause { execState with sr := 0x3F } = none ∧ (∃ t, singleStep { execState with sr := 0x3F, opc := 0x0C } = .next t) ∧
    resetCause { execState with sr := 0x3F, opc := 0x0C } ≠ none := ⟨⟨_, rfl⟩, by decide, ⟨_, rfl⟩, by decide⟩
theorem witness_InternalRegistersAreUnseen : (Instr.pop 5).mnemonic ≠ none ∧ ∃ t, exec (.pop 5) execState = .next t :=
  ⟨by decide, ⟨_, rfl⟩⟩
/-- LastPushedIsUnread's witness too. -/
theorem witness_RegisterFileReadersAndWriters : (∃ t, exec .ret execState = .next t) ∧
    (∃ t, exec (.push 31) execState = .next t) ∧ ∃ t, exec (.pop 31) execState = .next t := ⟨⟨_, rfl⟩, ⟨_, rfl⟩, ⟨_, rfl⟩⟩
theorem witness_PortAccessesAccountForStores : (∃ t, serve .reset execState = .next t) ∧
    (∃ t, serve .singleStep execState = .next t) ∧ ∃ t, serve .fullCycleStep (fetching 0x081100) = .next t :=
  ⟨⟨_, rfl⟩, ⟨_, rfl⟩, ⟨_, rfl⟩⟩
theorem witness_RequestsOnThePorts : (fetching 0x081100).state = .fetch ∧
    ({ execState with state := .invalid } : State).state = .invalid := by decide
theorem witness_AssemblerTextSpellsInstruction : (31 : Byte).toNat < 32 ∧
    (∃ r ∈ (Instr.pop 32).regOperands, 32 ≤ r.toNat) ∧ (Instr.unrecognized 0x0C).mnemonic = none := by decide
theorem witness_SelfJumpRepeatsForever : (fetching 0x071000).state = .fetch ∧
    decode (pmRead (fetching 0x071000) (fetching 0x071000).pc) = .jmp (fetching 0x071000).pc := by decide
theorem witness_PlacedWordIsRunNext : 0xFFFFFF < 2 ^ 24 ∧ ProgramMemory.wf State.reset.cfg.pmSize State.reset.pm = true := by decide

def labelledState : State :=
  { execState with cfg := { Config.standard with image := { words := [], subroutines := [⟨0, 0x0F, "main"⟩, ⟨0x10, 0xFF, "setup"⟩] } } }
theorem witness_SubroutineNameResolves :
    (labelledState.cfg.image.subroutines.Pairwise fun p q => p.last.toNat < q.first.toNat ∨ q.last.toNat < p.first.toNat) ∧
    (⟨0x10, 0xFF, "setup"⟩ : Subroutine) ∈ labelledState.cfg.image.subroutines ∧ labelledState.mar.toNat = 0x10 ∧
    ∀ r ∈ execState.cfg.image.subroutines, ¬ (r.first.toNat ≤ execState.mar.toNat ∧ execState.mar.toNat ≤ r.last.toNat) := by decide
theorem witness_SnapshotShowsState : ({ execState with opc := 0x0B } : State).opc = Mnemonic.pop.opcode := by decide

end Sys2Proof.Tests
end

section
/-! SUPPORT. The invariant of the machine: the part of it that no FSM state enters into, kept by each
operation on the state, and then by each transition. -/

namespace Sys2Proof.Machine

open Sys2Proof

variable {s t : State}

/-- The part of `Inv` that speaks of the stores and SR alone, whatever the FSM state is. -/
structure StoresSound (s : State) : Prop where
  dataCanonical : Memory.wf s.cfg.dmSize s.dm = true
  programIsImage : s.pm = s.cfg.image.words
  programCanonical : ProgramMemory.wf s.cfg.pmSize s.pm = true
  statusZero : s.sr = 0
  stackBounded : ∀ c, s.cfg.stackCapacity = some c → s.stack.length ≤ c

theorem Inv.storesSound (h : Inv s) : StoresSound s :=
  ⟨h.dataCanonical, h.programIsImage, h.programCanonical, h.statusZero, h.stackBounded⟩

/-- In FETCH the invariant asks nothing of the registers that a cycle fills. -/
theorem StoresSound.inv_of_fetch (h : StoresSound s) (hs : s.state = .fetch) : Inv s where
  dataCanonical := h.dataCanonical
  programIsImage := h.programIsImage
  programCanonical := h.programCanonical
  statusZero := h.statusZero
  stateValid := by simp [hs]
  stackBounded := h.stackBounded
  fetched hn := absurd hs hn
  decoded he := by simp [hs] at he

theorem StoresSound.setReg (h : StoresSound s) (d : Fin 32) (v : Byte) : StoresSound (s.setReg d v) :=
  { h with }

theorem StoresSound.setPc (h : StoresSound s) (a : Byte) : StoresSound (s.setPc a) := { h with }

theorem StoresSound.setState (h : StoresSound s) (f : FsmState) : StoresSound (s.setState f) := { h with }

theorem StoresSound.memWrite (h : StoresSound s) (a : DataAddr) (v : Byte) :
    StoresSound (memWrite s a v) where
  dataCanonical := by simpa using memWrite_wf s a v h.dataCanonical
  programIsImage := by simpa using h.programIsImage
  programCanonical := by simpa using h.programCanonical
  statusZero := by simpa using h.statusZero
  stackBounded := by simpa using h.stackBounded

/-- A push that fits stays within STACK_CAPACITY: the depth was not the capacity, so it was less. -/
theorem StoresSound.pushed (h : StoresSound s) (hr : HasRoom s) (v : Byte) : StoresSound (s.pushed v) :=
  { h with
    stackBounded := fun c hc => by
      have hle : s.stack.length ≤ c := h.stackBounded c hc
      have hne : c ≠ s.stack.length := fun e => hr (hc.trans (congrArg some e))
      simp only [State.pushed_stack, List.length_append, List.length_singleton]
      omega }

theorem StoresSound.popped (h : StoresSound s) : StoresSound s.popped :=
  { h with
    stackBounded := fun c hc => by
      have hle : s.stack.length ≤ c := h.stackBounded c hc
      simp only [State.popped_stack, List.length_dropLast]
      omega }

/-- The reload takes PROGRAM_IMAGE, which is what program memory held. -/
theorem StoresSound.fullReset (h : StoresSound s) : StoresSound (fullReset s) where
  dataCanonical := fullReset_memory_wf s
  programIsImage := rfl
  programCanonical := by simpa [← h.programIsImage] using h.programCanonical
  statusZero := rfl
  stackBounded := by simp

/-- Every instruction's rule keeps the stores and SR sound, the unrecognized opcode's among them. -/
theorem StoresSound.of_exec {i : Instr} (hs : StoresSound s) (h : exec i s = .next t) : StoresSound t := by
  rcases exec_next_cases h with ⟨-, rfl⟩ | ⟨_, k, d, -, -, rfl⟩ | ⟨_, _, d, r, -, -, -, rfl⟩ |
    ⟨a, _, r, -, -, rfl⟩ | ⟨_, a, d, -, -, rfl⟩ | ⟨a, _, r, -, -, rfl⟩ | ⟨_, a, d, -, -, rfl⟩ |
    ⟨a, -, rfl⟩ | ⟨a, -, hr, rfl⟩ | ⟨v, -, -, rfl⟩ | ⟨_, r, -, -, hr, rfl⟩ | ⟨_, d, v, -, -, -, rfl⟩ |
    ⟨_, -, rfl⟩
  · exact hs
  · exact hs.setReg d k
  · exact hs.setReg d _
  · exact hs.memWrite _ _
  · exact hs.setReg d _
  · exact hs.memWrite _ _
  · exact hs.setReg d _
  · exact hs.setPc a
  · exact (hs.pushed hr _).setPc a
  · exact hs.popped.setPc v
  · exact hs.pushed hr _
  · exact hs.popped.setReg d v
  · exact hs.fullReset

/-- The full reset leads to a state of the invariant. -/
theorem Inv.after_reset (h : Inv s) : Inv (fullReset s) := h.storesSound.fullReset.inv_of_fetch rfl

/-- FETCH fills MAR and IR as the invariant asks of the states after it (spec/40_fsm_cycle.md R100). -/
theorem Inv.after_fetch (h : Inv s) : Inv (fetchTransition s) :=
  { h.storesSound with
    stateValid := by simp
    fetched := fun _ => ⟨rfl, rfl⟩
    decoded := by simp }

/-- DECODE fills the decoded fields from IR and leaves what FETCH filled (spec/40_fsm_cycle.md R101). -/
theorem Inv.after_decode (h : Inv s) (hs : s.state = .decode) : Inv (decodeTransition s) :=
  { h.storesSound with
    stateValid := by simp
    fetched := fun _ => h.fetched (by simp [hs])
    decoded := fun _ => ⟨rfl, rfl, rfl⟩ }

/-- A transition from EXECUTE ends in FETCH and keeps the invariant (spec/40_fsm_cycle.md R102). -/
theorem Inv.after_execute (h : Inv s) (hs : s.state = .execute) (ht : singleStep s = .next t) :
    Inv t ∧ t.state = .fetch := by
  obtain ⟨u, hu, rfl⟩ : ∃ u, exec (decodedInstr s) s = .next u ∧ t = u.setState .fetch := by
    simpa [hs] using singleStep_cases ht
  exact ⟨((h.storesSound.of_exec hu).setState .fetch).inv_of_fetch rfl, rfl⟩

/-- Every transition keeps the invariant. -/
theorem Inv.after_singleStep (h : Inv s) (ht : singleStep s = .next t) : Inv t := by
  rcases singleStep_cases ht with ⟨-, rfl⟩ | ⟨hs, rfl⟩ | ⟨hs, -⟩ | ⟨-, rfl⟩
  · exact h.after_fetch
  · exact h.after_decode hs
  · exact (h.after_execute hs ht).1
  · exact h.after_reset

/-- A full-cycle-step goes to EXECUTE through states of the invariant and ends with the transition from
there (spec/40_fsm_cycle.md R105). -/
theorem Inv.step_eq_singleStep (h : Inv s) : ∃ u, Inv u ∧ u.state = .execute ∧ step s = singleStep u := by
  cases hs : s.state with
  | fetch => exact ⟨inExecute s, h.after_fetch.after_decode rfl, rfl, step_fetch hs⟩
  | decode => exact ⟨decodeTransition s, h.after_decode hs, rfl, step_decode hs⟩
  | execute => exact ⟨s, h, hs, step_execute hs⟩
  | invalid => exact absurd hs h.stateValid

/-- Settles O48: a step ends with a transition from EXECUTE, which returns to FETCH. -/
theorem stepKeepsInvariant : Obligations.StepKeepsInvariant := by
  intro s t h ht
  obtain ⟨u, hu, he, hstep⟩ := h.step_eq_singleStep
  exact hu.after_execute he (hstep ▸ ht)

/-- Settles O49, by the request: the full reset, one transition, or a step. -/
theorem hostRequestsKeepInvariant : Obligations.HostRequestsKeepInvariant := by
  intro r s t h ht
  cases r with
  | reset => cases ht; exact h.after_reset
  | singleStep => exact h.after_singleStep ht
  | fullCycleStep => exact (stepKeepsInvariant s t h ht).1

end Sys2Proof.Machine
end

section
/-! SUPPORT. Noninterference: a state with some of its fields exchanged, and the instructions that
neither see nor touch those fields. -/

namespace Sys2Proof.Machine

open Sys2Proof

variable {s t : State} {i : Instr}

/-- `s` with the internal registers of `u`: IR, MAR, the decoded fields, SR and the FSM state. -/
def State.withInternalsOf (s u : State) : State :=
  { s with ir := u.ir, mar := u.mar, opc := u.opc, op1 := u.op1, op2 := u.op2, sr := u.sr, state := u.state }

theorem memWrite_withInternalsOf (s u : State) (a : DataAddr) (v : Byte) :
    memWrite (s.withInternalsOf u) a v = (memWrite s a v).withInternalsOf u := by
  by_cases ha : a.toNat < s.cfg.dmSize <;> simp [memWrite, State.withInternalsOf, ha]

/-- A recognized instruction's rule runs alike over any internal registers, and leaves them. -/
theorem exec_withInternalsOf (hm : i.mnemonic ≠ none) (h : exec i s = .next t) (u : State) :
    exec i (s.withInternalsOf u) = .next (t.withInternalsOf u) := by
  rcases exec_next_cases h with ⟨rfl, rfl⟩ | ⟨r, k, d, rfl, hd, rfl⟩ | ⟨a, b, d, r, rfl, hd, hr, rfl⟩ |
    ⟨a, r, d, rfl, hd, rfl⟩ | ⟨r, a, d, rfl, hd, rfl⟩ | ⟨a, r, d, rfl, hd, rfl⟩ | ⟨r, a, d, rfl, hd, rfl⟩ |
    ⟨a, rfl, rfl⟩ | ⟨a, rfl, hr, rfl⟩ | ⟨v, rfl, hv, rfl⟩ | ⟨r, d, rfl, hd, hr, rfl⟩ |
    ⟨r, d, v, rfl, hd, hv, rfl⟩ | ⟨o, rfl, rfl⟩
  · rfl
  · exact execLdi_of_names (s := s.withInternalsOf u) hd
  · exact execMov_of_names (s := s.withInternalsOf u) hd hr
  · rw [← memWrite_withInternalsOf]
    exact execOut_of_names (s := s.withInternalsOf u) hd
  · exact execIn_of_names (s := s.withInternalsOf u) hd
  · rw [← memWrite_withInternalsOf]
    exact execSts_of_names (s := s.withInternalsOf u) hd
  · exact execLds_of_names (s := s.withInternalsOf u) hd
  · rfl
  · exact execCall_of_room (s := s.withInternalsOf u) hr
  · exact execRet_of_answers (s := s.withInternalsOf u) hv
  · exact execPush_of_room (s := s.withInternalsOf u) hd hr
  · exact execPop_of_answers (s := s.withInternalsOf u) hd hv
  · exact absurd rfl hm

/-- A recognized instruction's rule writes no internal register: over those of `s` itself it ends in
`t`, and in `t` with the internal registers of `s`. -/
theorem withInternalsOf_of_exec (hm : i.mnemonic ≠ none) (h : exec i s = .next t) :
    t.withInternalsOf s = t := by
  have hself : exec i s = .next (t.withInternalsOf s) := exec_withInternalsOf hm h s
  exact Host.Outcome.next.inj (hself.symm.trans h)

/-- Settles O53: the other values are those of a state that holds them. -/
theorem internalRegistersAreUnseen : Obligations.InternalRegistersAreUnseen := by
  intro i s t ir mar opc op1 op2 sr f hm h
  exact exec_withInternalsOf hm h
    { s with ir := ir, mar := mar, opc := opc, op1 := op1, op2 := op2, sr := sr, state := f }

/-- In EXECUTE the tag's cause is missing exactly where the decoded instruction is recognized. -/
theorem resetCause_execute_eq_none_iff (hs : s.state = .execute) :
    resetCause s = none ↔ (decodedInstr s).mnemonic ≠ none := by
  simp only [resetCause, hs]
  cases decodedInstr s <;> simp [Instr.mnemonic]

/-- An instruction without a mnemonic is an unrecognized opcode, which resets (spec/60_exceptions.md R200). -/
theorem exec_of_mnemonic_none (hm : i.mnemonic = none) (s : State) : exec i s = .next (fullReset s) := by
  cases i with
  | unrecognized o => rfl
  | _ => simp [Instr.mnemonic] at hm

/-- EXECUTE of a recognized instruction runs alike over any SR, and leaves it. -/
theorem executeTransition_sr (hm : (decodedInstr s).mnemonic ≠ none)
    (h : exec (decodedInstr s) s = .next t) (v : StatusWord) :
    executeTransition { s with sr := v } = .next { t.setState .fetch with sr := v } := by
  have hv : exec (decodedInstr s) { s with sr := v } = .next { t with sr := v } := by
    rw [← withInternalsOf_of_exec hm h]
    exact exec_withInternalsOf hm h { s with sr := v }
  have hd : decodedInstr { s with sr := v } = decodedInstr s := rfl
  rw [executeTransition, hd, hv]
  rfl

/-- Settles O52, by the transition: FETCH and DECODE neither see nor touch SR, EXECUTE does so only
where it resets, and the invalid state resets. -/
theorem statusRegisterOnlyReset : Obligations.StatusRegisterOnlyReset := by
  intro s t h
  rcases singleStep_cases h with ⟨hs, rfl⟩ | ⟨hs, rfl⟩ | ⟨hs, u, hu, rfl⟩ | ⟨hs, rfl⟩
  · exact ⟨fun _ => ⟨rfl, fun v => singleStep_fetch hs⟩, by simp [resetCause, hs]⟩
  · exact ⟨fun _ => ⟨rfl, fun v => singleStep_decode hs⟩, by simp [resetCause, hs]⟩
  · rw [ne_eq, resetCause_execute_eq_none_iff hs, not_not]
    refine ⟨fun hm => ⟨?_, fun v => ?_⟩, fun hm => ?_⟩
    · exact (congrArg State.sr (withInternalsOf_of_exec hm hu)).symm
    · exact (singleStep_execute (s := { s with sr := v }) hs).trans (executeTransition_sr hm hu v)
    · rw [exec_of_mnemonic_none hm] at hu
      cases hu
      rfl
  · exact ⟨by simp [resetCause, hs], fun _ => rfl⟩

/-- NOP, JMP, CALL and RET run alike over any register file, and leave it. -/
theorem exec_withRegs_of_control (hm : i.mnemonic ∈ [some .nop, some .jmp, some .call, some .ret])
    (h : exec i s = .next t) (y : Vector Byte 32) :
    exec i { s with x := y } = .next { t with x := y } := by
  cases i with
  | nop => cases h; rfl
  | jmp a => cases h; rfl
  | call a =>
    obtain ⟨hr, rfl⟩ : HasRoom s ∧ t = (s.pushed s.pc).setPc a := by simpa using exec_next_cases h
    exact execCall_of_room (s := { s with x := y }) hr
  | ret =>
    obtain ⟨v, hv, rfl⟩ : ∃ v, PopAnswers s v s.stack.dropLast ∧ t = s.popped.setPc v := by
      simpa using exec_next_cases h
    exact execRet_of_answers (s := { s with x := y }) hv
  | _ => simp [Instr.mnemonic] at hm

/-- OUT, STS and PUSH leave the register file. -/
theorem exec_keeps_regs_of_store (hm : i.mnemonic ∈ [some .out, some .sts, some .push])
    (h : exec i s = .next t) : t.x = s.x := by
  cases i with
  | out a r =>
    obtain ⟨d, -, rfl⟩ : ∃ d, RegNames s r d ∧ t = memWrite s (ioAddr a) (s.reg d) := by
      simpa using exec_next_cases h
    exact memWrite_x ..
  | sts a r =>
    obtain ⟨d, -, rfl⟩ : ∃ d, RegNames s r d ∧ t = memWrite s (extAddr a) (s.reg d) := by
      simpa using exec_next_cases h
    exact memWrite_x ..
  | push r =>
    obtain ⟨d, -, -, rfl⟩ : ∃ d, RegNames s r d ∧ HasRoom s ∧ t = s.pushed (s.reg d) := by
      simpa using exec_next_cases h
    exact State.pushed_x ..
  | _ => simp [Instr.mnemonic] at hm

/-- LDI, IN, LDS and POP write one register, the same byte to the same one over any register file. -/
theorem exec_withRegs_of_load (hm : i.mnemonic ∈ [some .ldi, some .inp, some .lds, some .pop])
    (h : exec i s = .next t) (y : Vector Byte 32) :
    ∃ (d : Fin 32) (v : Byte), t.x = s.x.set d.val v ∧
      exec i { s with x := y } = .next { t with x := y.set d.val v } := by
  cases i with
  | ldi r k =>
    obtain ⟨d, hd, rfl⟩ : ∃ d, RegNames s r d ∧ t = s.setReg d k := by simpa using exec_next_cases h
    exact ⟨d, k, rfl, execLdi_of_names (s := { s with x := y }) hd⟩
  | inp r a =>
    obtain ⟨d, hd, rfl⟩ : ∃ d, RegNames s r d ∧ t = s.setReg d (memRead s (ioAddr a)) := by
      simpa using exec_next_cases h
    exact ⟨d, _, rfl, execIn_of_names (s := { s with x := y }) hd⟩
  | lds r a =>
    obtain ⟨d, hd, rfl⟩ : ∃ d, RegNames s r d ∧ t = s.setReg d (memRead s (extAddr a)) := by
      simpa using exec_next_cases h
    exact ⟨d, _, rfl, execLds_of_names (s := { s with x := y }) hd⟩
  | pop r =>
    obtain ⟨d, hd, v, hv, rfl⟩ : ∃ d, RegNames s r d ∧ ∃ v, PopAnswers s v s.stack.dropLast ∧
        t = s.popped.setReg d v := by
      simpa using exec_next_cases h
    exact ⟨d, v, rfl, execPop_of_answers (s := { s with x := y }) hd hv⟩
  | _ => simp [Instr.mnemonic] at hm

/-- Settles O54, by the three groups of instructions. -/
theorem registerFileReadersAndWriters : Obligations.RegisterFileReadersAndWriters := by
  intro i s t y h
  exact ⟨fun hm => exec_withRegs_of_control hm h y, fun hm => exec_keeps_regs_of_store hm h,
    fun hm => exec_withRegs_of_load hm h y⟩

end Sys2Proof.Machine
end

section
/-! SUPPORT. Program memory: what a canonical list of words reads as, the words an image is loaded from,
the word placed where the machine fetches next, that no request of the host changes it, and the labels of
its ranges. -/

namespace Sys2Proof.Machine

open Sys2Proof

variable {n : Nat} {s t : State} {i : Instr}

/-- A listed address lies within the bounds of a canonical store. -/
theorem Store.bounds_of_mem {size lo a : Nat} {v : BitVec n} (m : List (Nat × BitVec n))
    (h : Store.canonFrom size lo m = true) (hm : (a, v) ∈ m) : lo ≤ a ∧ a < size := by
  induction m generalizing lo with
  | nil => cases hm
  | cons e rest ih =>
    simp only [Store.canonFrom, Bool.and_eq_true, decide_eq_true_eq] at h
    rcases List.mem_cons.mp hm with rfl | hr
    · exact h.1.1
    · have hb := ih h.2 hr
      omega

/-- A canonical store lists an address once, and reads there what it lists. -/
theorem Store.read_of_mem {size lo a : Nat} {v : BitVec n} (m : List (Nat × BitVec n))
    (h : Store.canonFrom size lo m = true) (hm : (a, v) ∈ m) : Store.read m a = v := by
  induction m generalizing lo with
  | nil => cases hm
  | cons e rest ih =>
    simp only [Store.canonFrom, Bool.and_eq_true, decide_eq_true_eq] at h
    rcases List.mem_cons.mp hm with rfl | hr
    · simp [Store.read]
    · have hb := Store.bounds_of_mem rest h.2 hr
      have hne : a ≠ e.1 := by omega
      simpa [Store.read, hne] using ih h.2 hr

/-- An address that is not listed reads 0, whatever form the store is in. -/
theorem Store.read_of_forall_not_mem {a : Nat} (m : List (Nat × BitVec n)) (h : ∀ v, (a, v) ∉ m) :
    Store.read m a = 0#n := by
  induction m with
  | nil => rfl
  | cons e rest ih =>
    have hne : a ≠ e.1 := fun he => h e.2 (he ▸ List.mem_cons_self)
    simpa [Store.read, hne] using ih fun v hv => h v (List.mem_cons_of_mem _ hv)

theorem pmRead_of_lt {a : Byte} (ha : a.toNat < s.cfg.pmSize) : pmRead s a = Store.read s.pm a.toNat :=
  if_pos ha

theorem pmRead_of_le {a : Byte} (ha : s.cfg.pmSize ≤ a.toNat) : pmRead s a = 0 := if_neg (by omega)

/-- Settles O38, from what a canonical store reads at a listed and at an unlisted address. -/
theorem programReadContract : Obligations.ProgramReadContract := by
  intro s a hwf
  refine ⟨fun w hw => ?_, fun hn => ?_, pmRead_of_le⟩
  · have ha := (Store.bounds_of_mem s.pm hwf hw).2
    exact ⟨ha, (pmRead_of_lt ha).trans (Store.read_of_mem s.pm hwf hw)⟩
  · rcases Nat.lt_or_ge a.toNat s.cfg.pmSize with ha | ha
    · exact (pmRead_of_lt ha).trans (Store.read_of_forall_not_mem s.pm hn)
    · exact pmRead_of_le ha

/-- Writing words out as bytes and reading them back gives the words (decision D17). -/
theorem wordsOfBytes_flatMap_bytesOfWord (ws : List Word24) :
    wordsOfBytes (ws.flatMap bytesOfWord) = .ok ws := by
  induction ws with
  | nil => rfl
  | cons w ws ih =>
    simp only [List.flatMap_cons, bytesOfWord, List.cons_append, List.nil_append, wordsOfBytes, ih,
      joinFields_fields]

/-- The zero instruction is what an unlisted address reads, and is not listed. -/
theorem placeWords_cons_zero (a : Nat) (ws : List Word24) :
    placeWords a (0 :: ws) = placeWords (a + 1) ws := if_pos rfl

theorem placeWords_cons_of_ne (a : Nat) {w : Word24} (ws : List Word24) (hw : w ≠ 0) :
    placeWords a (w :: ws) = (a, w) :: placeWords (a + 1) ws := if_neg hw

/-- Words placed from an address on form a canonical store, where they fit. -/
theorem placeWords_canonFrom {size a : Nat} (ws : List Word24) (h : a + ws.length ≤ size) :
    Store.canonFrom size a (placeWords a ws) = true := by
  induction ws generalizing a with
  | nil => rfl
  | cons w ws ih =>
    rw [List.length_cons] at h
    have hrest : Store.canonFrom size (a + 1) (placeWords (a + 1) ws) = true := ih (by omega)
    by_cases hw : w = 0
    · subst hw
      rw [placeWords_cons_zero]
      exact Store.canonFrom_mono _ le_rfl (Nat.le_succ a) hrest
    · have ha : a < size := by omega
      simpa [placeWords_cons_of_ne a ws hw, Store.canonFrom, hrest, ha] using hw

/-- Words placed from an address on read back each at its own, and 0 after the last. -/
theorem read_placeWords (ws : List Word24) (a j : Nat) :
    Store.read (placeWords a ws) (a + j) = (ws[j]?).getD 0 := by
  induction ws generalizing a j with
  | nil => rfl
  | cons w ws ih =>
    have hbelow : Store.read (placeWords (a + 1) ws) a = 0 :=
      Store.read_below _ (placeWords_canonFrom ws le_rfl) (Nat.lt_succ_self a)
    have hnext : ∀ j, Store.read (placeWords (a + 1) ws) (a + (j + 1)) = (ws[j]?).getD 0 := fun j => by
      rw [← ih (a + 1) j, Nat.add_right_comm, Nat.add_assoc]
    by_cases hw : w = 0
    · subst hw
      rw [placeWords_cons_zero]
      cases j with
      | zero => exact hbelow
      | succ j => exact hnext j
    · rw [placeWords_cons_of_ne a ws hw]
      cases j with
      | zero => exact if_pos rfl
      | succ j => exact (if_neg (by omega)).trans (hnext j)

/-- An image that loads fits in PM_SIZE, and is the words placed from address 0 on. -/
theorem loadBytes_eq_ok {c c' : Config} {ws : List Word24} {labels : List Subroutine}
    (h : loadBytes c (ws.flatMap bytesOfWord) labels = .ok c') :
    ws.length ≤ c.pmSize ∧ c' = { c with image := { words := placeWords 0 ws, subroutines := labels } } := by
  simp only [loadBytes, wordsOfBytes_flatMap_bytesOfWord, loadImage] at h
  split at h
  · next hfit => exact ⟨hfit, (Except.ok.inj h).symm⟩
  · cases h

/-- Settles O5: the bytes give the words back, and the words are placed from address 0 on. -/
theorem loadedImageIsWhatIsFetched : Obligations.LoadedImageIsWhatIsFetched := by
  intro c c' ws labels h
  obtain ⟨hfit, rfl⟩ := loadBytes_eq_ok h
  refine ⟨fun a => ?_, rfl, hfit, placeWords_canonFrom ws (by simpa using hfit)⟩
  rcases Nat.lt_or_ge a.toNat c.pmSize with ha | ha
  · rw [pmRead_of_lt ha, ← read_placeWords ws 0 a.toNat, Nat.zero_add]
    rfl
  · rw [pmRead_of_le ha, List.getElem?_eq_none (by omega)]
    rfl

/-- The placed word stands where the machine fetches next, PM_SIZE holding that address. -/
theorem pmRead_placeInstr_self (w : Word24) (h : ProgramMemory.wf s.cfg.pmSize s.pm = true) :
    pmRead (placeInstr s w) s.pc = w :=
  (pmRead_of_lt (show s.pc.toNat < max s.cfg.pmSize (s.pc.toNat + 1) by omega)).trans
    (Store.read_write_self s.pm w h)

/-- Placing a word leaves the others that program memory has. -/
theorem pmRead_placeInstr_of_ne (w : Word24) {a : Byte} (hne : a ≠ s.pc) (ha : a.toNat < s.cfg.pmSize) :
    pmRead (placeInstr s w) a = pmRead s a := by
  have hn : a.toNat ≠ s.pc.toNat := fun e => hne (BitVec.eq_of_toNat_eq e)
  rw [pmRead_of_lt ha, pmRead_of_lt (show a.toNat < max s.cfg.pmSize (s.pc.toNat + 1) by omega)]
  exact Store.read_write_of_ne s.pm w hn

/-- A table row's word of 24 bits is the word placed. -/
theorem withFetchWord_eq_placeInstr (s : State) {w : Nat} (hw : w < 2 ^ 24) :
    s.withFetchWord 24 w = placeInstr s (BitVec.ofNat 24 w) := by
  rw [State.withFetchWord, tableWord, Nat.mod_eq_of_lt hw]

/-- Settles O57: the placed word is the one fetched, and a step from FETCH runs the word it fetches. -/
theorem placedWordIsRunNext : Obligations.PlacedWordIsRunNext := by
  intro s w hw hwf
  rw [withFetchWord_eq_placeInstr s hw]
  have hread : pmRead (placeInstr s (BitVec.ofNat 24 w)) s.pc = BitVec.ofNat 24 w :=
    pmRead_placeInstr_self _ hwf
  have hstep := step_fetch_exec (s := placeInstr s (BitVec.ofNat 24 w)) rfl
  rw [show (placeInstr s (BitVec.ofNat 24 w)).pc = s.pc from rfl, hread] at hstep
  exact ⟨hread, hstep, fun a hne ha => pmRead_placeInstr_of_ne _ hne ha⟩

/-- `t` has the program memory and the model arguments of `s`. -/
def SameProgram (s t : State) : Prop := t.pm = s.pm ∧ t.cfg = s.cfg

/-- The reload of a full reset brings in what program memory held, that being PROGRAM_IMAGE. -/
theorem SameProgram.fullReset (hp : s.pm = s.cfg.image.words) : SameProgram s (fullReset s) := ⟨hp.symm, rfl⟩

theorem SameProgram.memWrite (s : State) (a : DataAddr) (v : Byte) : SameProgram s (memWrite s a v) :=
  ⟨memWrite_pm .., memWrite_cfg ..⟩

/-- No instruction's rule changes program memory or a model argument, the unrecognized opcode's reload
among them. -/
theorem SameProgram.of_exec (hp : s.pm = s.cfg.image.words) (h : exec i s = .next t) : SameProgram s t := by
  rcases exec_next_cases h with ⟨-, rfl⟩ | ⟨_, _, _, -, -, rfl⟩ | ⟨_, _, _, _, -, -, -, rfl⟩ |
    ⟨_, _, _, -, -, rfl⟩ | ⟨_, _, _, -, -, rfl⟩ | ⟨_, _, _, -, -, rfl⟩ | ⟨_, _, _, -, -, rfl⟩ |
    ⟨_, -, rfl⟩ | ⟨_, -, -, rfl⟩ | ⟨_, -, -, rfl⟩ | ⟨_, _, -, -, -, rfl⟩ | ⟨_, _, _, -, -, -, rfl⟩ |
    ⟨_, -, rfl⟩
  · exact ⟨rfl, rfl⟩
  · exact ⟨rfl, rfl⟩
  · exact ⟨rfl, rfl⟩
  · exact .memWrite ..
  · exact ⟨rfl, rfl⟩
  · exact .memWrite ..
  · exact ⟨rfl, rfl⟩
  · exact ⟨rfl, rfl⟩
  · exact ⟨rfl, rfl⟩
  · exact ⟨rfl, rfl⟩
  · exact ⟨rfl, rfl⟩
  · exact ⟨rfl, rfl⟩
  · exact .fullReset hp

theorem SameProgram.of_singleStep (hp : s.pm = s.cfg.image.words) (h : singleStep s = .next t) :
    SameProgram s t := by
  rcases singleStep_cases h with ⟨-, rfl⟩ | ⟨-, rfl⟩ | ⟨-, u, hu, rfl⟩ | ⟨-, rfl⟩
  · exact ⟨rfl, rfl⟩
  · exact ⟨rfl, rfl⟩
  · exact SameProgram.of_exec (t := u) hp hu
  · exact .fullReset hp

/-- A full-cycle-step goes to EXECUTE through states with the same program, and ends with the transition
from there (spec/40_fsm_cycle.md R105). -/
theorem SameProgram.step_eq_singleStep (hp : s.pm = s.cfg.image.words) :
    ∃ u, SameProgram s u ∧ step s = singleStep u := by
  cases hs : s.state with
  | fetch => exact ⟨inExecute s, ⟨rfl, rfl⟩, step_fetch hs⟩
  | decode => exact ⟨decodeTransition s, ⟨rfl, rfl⟩, step_decode hs⟩
  | execute => exact ⟨s, ⟨rfl, rfl⟩, step_execute hs⟩
  | invalid => exact ⟨inExecute (Machine.fullReset s), .fullReset hp, step_invalid hs⟩

/-- Every request of the host, mid-cycle ones among them, leaves the program as it was. -/
theorem SameProgram.of_serve {r : HostRequest} (hp : s.pm = s.cfg.image.words) (h : serve r s = .next t) :
    SameProgram s t := by
  cases r with
  | reset => cases h; exact .fullReset hp
  | singleStep => exact .of_singleStep hp h
  | fullCycleStep =>
    obtain ⟨u, ⟨hpm, hcfg⟩, hstep⟩ := SameProgram.step_eq_singleStep hp
    have hu : SameProgram u t := .of_singleStep (by rw [hpm, hcfg, hp]) (hstep ▸ h)
    exact ⟨hu.1.trans hpm, hu.2.trans hcfg⟩

/-- Settles O51: every request keeps the program, and a fetch looks at nothing else. -/
theorem programMemoryNeverChanges : Obligations.ProgramMemoryNeverChanges := by
  intro r s t hp h
  obtain ⟨hpm, hcfg⟩ := SameProgram.of_serve hp h
  exact ⟨hpm, hcfg, pmRead_congr hcfg hpm⟩

/-- An address lies in a labelled range, both ends included (spec/20_memory.md R53). -/
def InRange (a : Byte) (r : Subroutine) : Prop := r.first.toNat ≤ a.toNat ∧ a.toNat ≤ r.last.toNat

/-- The name is the label of a listed range the address lies in, or Unknown where there is none. -/
theorem subroutineName_cases (ranges : List Subroutine) (a : Byte) :
    (∃ r ∈ ranges, InRange a r ∧ subroutineName ranges a = r.label) ∨
      ((∀ r ∈ ranges, ¬ InRange a r) ∧ subroutineName ranges a = "Unknown") := by
  unfold subroutineName
  split
  · next r hr =>
    exact .inl ⟨r, List.mem_of_find?_eq_some hr, by simpa [InRange] using List.find?_some hr, rfl⟩
  · next hn => exact .inr ⟨by simpa [InRange] using hn, rfl⟩

/-- Where the ranges do not overlap, an address lies in one of them at most. -/
theorem InRange.unique {ranges : List Subroutine} {a : Byte} {p q : Subroutine}
    (hd : ranges.Pairwise fun p q => p.last.toNat < q.first.toNat ∨ q.last.toNat < p.first.toNat)
    (hp : p ∈ ranges) (hq : q ∈ ranges) (hpa : InRange a p) (hqa : InRange a q) : p = q := by
  have : Std.Symm fun p q : Subroutine =>
      p.last.toNat < q.first.toNat ∨ q.last.toNat < p.first.toNat := ⟨fun _ _ => Or.symm⟩
  by_contra hne
  have hapart := hd.forall hp hq hne
  unfold InRange at hpa hqa
  omega

/-- Settles O58: the name is that of a range MAR lies in, and there is no second such range. -/
theorem subroutineNameResolves : Obligations.SubroutineNameResolves := by
  intro s hd
  rcases subroutineName_cases s.cfg.image.subroutines s.mar with ⟨q, hq, hqa, hname⟩ | ⟨hnone, hname⟩
  · refine ⟨fun r hr hfirst hlast => ?_, fun hout => absurd hqa (hout q hq)⟩
    rw [InRange.unique hd hr hq ⟨hfirst, hlast⟩ hqa]
    exact hname
  · exact ⟨fun r hr hfirst hlast => absurd ⟨hfirst, hlast⟩ (hnone r hr), fun _ => hname⟩

end Sys2Proof.Machine
end

section
/-! SUPPORT. Data memory as a plain store, and the stack as a last-in first-out one: several writes,
pushes and pops in order. -/

namespace Sys2Proof.Machine

open Sys2Proof

variable {s t : State} {i : Instr}

theorem writeAll_append_singleton (s : State) (ws : List (DataAddr × Byte)) (w : DataAddr × Byte) :
    writeAll s (ws ++ [w]) = memWrite (writeAll s ws) w.1 w.2 := by
  simp [writeAll]

@[simp] theorem writeAll_cfg (s : State) (ws : List (DataAddr × Byte)) : (writeAll s ws).cfg = s.cfg := by
  induction ws using List.reverseRecOn with
  | nil => rfl
  | append_singleton ws w ih => simp [writeAll_append_singleton, ih]

/-- Writes keep data memory in canonical form (spec/20_memory.md R56). -/
theorem writeAll_wf (s : State) (ws : List (DataAddr × Byte)) (h : Memory.wf s.cfg.dmSize s.dm = true) :
    Memory.wf s.cfg.dmSize (writeAll s ws).dm = true := by
  induction ws using List.reverseRecOn with
  | nil => exact h
  | append_singleton ws w ih =>
    rw [writeAll_append_singleton]
    simpa using memWrite_wf (writeAll s ws) w.1 w.2 (by simpa using ih)

theorem memRead_of_le {a : DataAddr} (ha : s.cfg.dmSize ≤ a.toNat) : memRead s a = 0 := if_neg (by omega)

/-- After several writes an address that exists reads the last value written to it, or what it read before. -/
theorem memRead_writeAll (ws : List (DataAddr × Byte)) {a : DataAddr}
    (h : Memory.wf s.cfg.dmSize s.dm = true) (ha : a.toNat < s.cfg.dmSize) :
    memRead (writeAll s ws) a =
      ((ws.reverse.find? fun w => decide (w.1 = a)).map Prod.snd).getD (memRead s a) := by
  induction ws using List.reverseRecOn with
  | nil => rfl
  | append_singleton ws w ih =>
    rw [writeAll_append_singleton, List.reverse_append]
    by_cases hw : w.1 = a
    · subst hw
      simpa using memRead_memWrite_self (writeAll s ws) w.1 w.2 (by simpa using writeAll_wf s ws h)
        (by simpa using ha)
    · rw [memRead_memWrite_of_ne _ _ (Ne.symm hw), ih]
      simp [hw]

/-- Settles O39, from several writes to a canonical memory in which every byte reads 0. -/
theorem dataMemoryIsPlainStore : Obligations.DataMemoryIsPlainStore := by
  intro s ws a
  split
  · next ha => simpa using memRead_writeAll ws (fullReset_memory_wf s) ha
  · next ha => exact memRead_of_le (by simpa using ha)

theorem sameRest_pushed (s : State) (v : Byte) : SameRest s (s.pushed v) :=
  ⟨rfl, rfl, rfl, rfl, rfl, rfl, rfl, rfl, rfl, rfl⟩

theorem sameRest_popped (s : State) : SameRest s s.popped :=
  ⟨rfl, rfl, rfl, rfl, rfl, rfl, rfl, rfl, rfl, rfl⟩

/-- Settles O40: a push that fits and a pop that answers are the two updates of the stack, which leave
the rest of the state. -/
theorem pushPopContract : Obligations.PushPopContract := by
  refine ⟨fun s v hr => ?_, fun s v hr => push_of_full hr v, fun s v rest h => ?_, fun s hb => pop_of_bad hb⟩
  · have hdepth : stackDepth (s.pushed v) = stackDepth s + 1 := List.length_append
    exact ⟨s.pushed v, push_of_room hr v, rfl, hdepth, rfl, rfl, fun _ => rfl, fun _ => rfl, sameRest_pushed s v⟩
  · have hdepth : stackDepth s.popped = stackDepth s - 1 := List.length_dropLast
    exact ⟨s.popped, pop_of_answers h, h.rest_eq.symm, hdepth, rfl, rfl, fun _ => rfl, fun _ => rfl,
      sameRest_popped s⟩

/-- Bytes that fit are pushed behind what the stack held, and `top()` is the last of them. -/
theorem pushAll_of_fits (vs : List Byte)
    (h : ∀ c, s.cfg.stackCapacity = some c → s.stack.length + vs.length ≤ c) :
    ∃ t, pushAll s vs = .ok t ∧ t.stack = s.stack ++ vs ∧ stackTop t = (vs.getLast?).getD (stackTop s) := by
  induction vs generalizing s with
  | nil => exact ⟨s, rfl, by simp, rfl⟩
  | cons v vs ih =>
    have hroom : HasRoom s := fun hc => by
      have hle := h _ hc
      rw [List.length_cons] at hle
      omega
    have hfits : ∀ c, (s.pushed v).cfg.stackCapacity = some c → (s.pushed v).stack.length + vs.length ≤ c :=
      fun c hc => by simpa [Nat.add_assoc, Nat.add_comm 1] using h c hc
    obtain ⟨t, ht, hstack, htop⟩ := ih hfits
    refine ⟨t, by simp only [pushAll, push_of_room hroom, ht], by simp [hstack], ?_⟩
    rw [htop, List.getLast?_cons]
    rfl

/-- The last bytes of the stack are popped in the opposite order, and `top()` stays. -/
theorem popAll_of_stack_eq {base : List Byte} (vs : List Byte) (h : t.stack = base ++ vs) :
    ∃ u, popAll t vs.length = .ok (vs.reverse, u) ∧ u.stack = base ∧ stackTop u = stackTop t := by
  induction vs using List.reverseRecOn generalizing t with
  | nil => exact ⟨t, rfl, by simpa using h, rfl⟩
  | append_singleton vs v ih =>
    have hpop : pop t = .ok (v, t.popped) := pop_of_answers (r := base ++ vs) (.inl (by simpa using h))
    obtain ⟨u, hu, hstack, htop⟩ := ih (t := t.popped) (by simp [h, ← List.append_assoc])
    refine ⟨u, ?_, hstack, htop⟩
    rw [List.length_append, List.length_singleton, List.reverse_append]
    simp only [popAll, hpop, hu]
    rfl

/-- Settles O41: the pushes put the bytes on the end, the pops take them from there. -/
theorem stackIsLastInFirstOut : Obligations.StackIsLastInFirstOut := by
  intro s vs h
  obtain ⟨t, hpush, hstack, htop⟩ := pushAll_of_fits vs h
  obtain ⟨u, hpop, hbase, htop'⟩ := popAll_of_stack_eq vs hstack
  exact ⟨t, u, hpush, hstack, hpop, hbase, htop'.trans htop⟩

theorem memWrite_withLastPushed (s : State) (l : Byte) (a : DataAddr) (v : Byte) :
    memWrite { s with lastPushed := l } a v = { memWrite s a v with lastPushed := l } := by
  by_cases ha : a.toNat < s.cfg.dmSize <;> simp [memWrite, ha]

/-- Settles O55, by the instruction: a push and the full reset put their own value in `lastPushed`, every
other rule leaves the one it finds. -/
theorem lastPushedIsUnread : Obligations.LastPushedIsUnread := by
  intro i s t l h
  rcases exec_next_cases h with ⟨rfl, rfl⟩ | ⟨r, k, d, rfl, hd, rfl⟩ | ⟨a, b, d, r, rfl, hd, hr, rfl⟩ |
    ⟨a, r, d, rfl, hd, rfl⟩ | ⟨r, a, d, rfl, hd, rfl⟩ | ⟨a, r, d, rfl, hd, rfl⟩ | ⟨r, a, d, rfl, hd, rfl⟩ |
    ⟨a, rfl, rfl⟩ | ⟨a, rfl, hr, rfl⟩ | ⟨v, rfl, hv, rfl⟩ | ⟨r, d, rfl, hd, hr, rfl⟩ |
    ⟨r, d, v, rfl, hd, hv, rfl⟩ | ⟨o, rfl, rfl⟩
  · exact ⟨l, rfl⟩
  · exact ⟨l, execLdi_of_names (s := { s with lastPushed := l }) hd⟩
  · exact ⟨l, execMov_of_names (s := { s with lastPushed := l }) hd hr⟩
  · refine ⟨l, ?_⟩
    rw [← memWrite_withLastPushed]
    exact execOut_of_names (s := { s with lastPushed := l }) hd
  · exact ⟨l, execIn_of_names (s := { s with lastPushed := l }) hd⟩
  · refine ⟨l, ?_⟩
    rw [← memWrite_withLastPushed]
    exact execSts_of_names (s := { s with lastPushed := l }) hd
  · exact ⟨l, execLds_of_names (s := { s with lastPushed := l }) hd⟩
  · exact ⟨l, rfl⟩
  · exact ⟨s.pc, execCall_of_room (s := { s with lastPushed := l }) hr⟩
  · exact ⟨l, execRet_of_answers (s := { s with lastPushed := l }) hv⟩
  · exact ⟨s.reg d, execPush_of_room (s := { s with lastPushed := l }) hd hr⟩
  · exact ⟨l, execPop_of_answers (s := { s with lastPushed := l }) hd hv⟩
  · exact ⟨Config.freeTop s.draws, rfl⟩

end Sys2Proof.Machine
end

section
/-! SUPPORT. The collaborator accesses of one transition (spec/20_memory.md R68): how many, and none
where a model fault is raised. -/

namespace Sys2Proof.Machine

open Sys2Proof

variable {α : Type} {s : State} {i : Instr} {f : Fault}

theorem accessIf_length_le {e : Except Fault α} {k : α → List PortAccess} {n : Nat}
    (h : ∀ a, (k a).length ≤ n) : (accessIf e k).length ≤ n := by
  cases e with
  | ok a => exact h a
  | error f => exact Nat.zero_le n

/-- A recognized instruction's rule asks one thing of one collaborator at most. -/
theorem execAccesses_length_le_one (hm : i.mnemonic ≠ none) (s : State) :
    (execAccesses i s).length ≤ 1 := by
  cases i with
  | nop | ldi | mov | jmp => exact Nat.zero_le 1
  | out | inp | sts | lds | call | ret => exact accessIf_length_le fun _ => le_rfl
  | push | pop => exact accessIf_length_le fun _ => accessIf_length_le fun _ => le_rfl
  | unrecognized o => exact absurd rfl hm

/-- A rule that checks first and then goes on asks nothing where it faults, if going on asks nothing
where that faults. -/
theorem accessIf_eq_nil_of_fault {e : Except Fault α} {g : α → Except Fault State}
    {k : α → List PortAccess} (h : outcome (e >>= g) = .fault f)
    (hk : ∀ a, outcome (g a) = .fault f → k a = []) : accessIf e k = [] := by
  cases e with
  | ok a => exact hk a h
  | error f' => rfl

/-- An instruction whose rule raises a model fault asks nothing of a collaborator
(spec/60_exceptions.md R204). -/
theorem execAccesses_of_fault (h : exec i s = .fault f) : execAccesses i s = [] := by
  cases i with
  | nop | ldi | mov | jmp => rfl
  | out | inp | sts | lds | call | ret => exact accessIf_eq_nil_of_fault h fun _ h' => nomatch h'
  | push r =>
    refine accessIf_eq_nil_of_fault h fun d h' => ?_
    rcases push_cases s (s.reg d) with ⟨-, he⟩ | ⟨-, he⟩
    · rw [he] at h'
      cases h'
    · rw [he, accessIf_error]
  | pop r => exact accessIf_eq_nil_of_fault h fun _ h' => accessIf_eq_nil_of_fault h' fun _ h'' => nomatch h''
  | unrecognized o => cases h

/-- An instruction without a mnemonic is an unrecognized opcode, which drives the three requests. -/
theorem execAccesses_of_mnemonic_none (hm : i.mnemonic = none) (s : State) :
    execAccesses i s = resetAccesses := by
  cases i with
  | unrecognized o => rfl
  | _ => cases hm

/-- A model fault raised in EXECUTE is the decoded instruction's. -/
theorem exec_of_executeTransition_fault (h : executeTransition s = .fault f) :
    exec (decodedInstr s) s = .fault f := by
  unfold executeTransition at h
  cases he : exec (decodedInstr s) s with
  | next t => rw [he] at h; cases h
  | fault g => rw [he] at h; cases h; rfl
  | refused r => rw [he] at h; cases h

/-- Settles O44, by the FSM state the transition starts in. -/
theorem oneCollaboratorAccessPerTransition : Obligations.OneCollaboratorAccessPerTransition := by
  intro s
  cases hs : s.state with
  | fetch => simp [accesses, resetCause, singleStep_fetch, hs]
  | decode => simp [accesses, resetCause, singleStep_decode, hs]
  | execute =>
    have hacc : accesses s = execAccesses (decodedInstr s) s := by simp only [accesses, hs]
    have hnone := resetCause_execute_eq_none_iff hs
    rw [hacc, singleStep_execute hs]
    refine ⟨fun hc => execAccesses_length_le_one (hnone.mp hc) s, fun c hc => ?_,
      fun f hf => execAccesses_of_fault (exec_of_executeTransition_fault hf)⟩
    exact execAccesses_of_mnemonic_none (by_contra fun hm => by simp [hnone.mpr hm] at hc) s
  | invalid => simp [accesses, resetCause, singleStep_invalid, hs, resetAccesses]

end Sys2Proof.Machine
end

section
/-! SUPPORT. The encoder and the decoder against each other: a well-formed instruction from its fields,
and a word from the instruction it decodes to. -/

namespace Sys2Proof

/-- A well-formed instruction is the one its own three fields select (spec/30_encoding.md R83, R85). -/
theorem decodeFields_of_wellFormed {i : Instr} (h : WellFormed i = true) :
    decodeFields i.opcode i.operand1 i.operand2 = i := by
  cases i with
  | unrecognized o => exact decodeFields_unrecognized (of_decide_eq_true h) 0 0
  | _ => rfl

/-- Settles O2: the fields of the encoding are the instruction's, and they select it again. -/
theorem decodeOfEncodeIsIdentity : Obligations.DecodeOfEncodeIsIdentity := by
  intro i h
  calc decode (encode i)
      = decodeFields i.opcode i.operand1 i.operand2 := decode_joinFields ..
    _ = i := decodeFields_of_wellFormed h

theorem joinFields_and (o a b o' a' b' : Byte) :
    joinFields o a b &&& joinFields o' a' b' = joinFields (o &&& o') (a &&& a') (b &&& b') :=
  BitVec.and_append.trans (congrArg (· ++ (b &&& b')) BitVec.and_append)

/-- The bits of the opcode field alone (spec/30_encoding.md R80). -/
theorem joinFields_and_opcodeBits (o a b : Byte) : joinFields o a b &&& 0xFF0000 = joinFields o 0 0 :=
  calc joinFields o a b &&& 0xFF0000
      = joinFields (o &&& BitVec.allOnes 8) (a &&& 0#8) (b &&& 0#8) := joinFields_and o a b (BitVec.allOnes 8) 0 0
    _ = joinFields o 0 0 := by simp only [BitVec.and_allOnes, BitVec.and_zero]; rfl

/-- The bits of the opcode and operand1 fields (spec/30_encoding.md R80). -/
theorem joinFields_and_operand1Bits (o a b : Byte) : joinFields o a b &&& 0xFFFF00 = joinFields o a 0 :=
  calc joinFields o a b &&& 0xFFFF00
      = joinFields (o &&& BitVec.allOnes 8) (a &&& BitVec.allOnes 8) (b &&& 0#8) :=
        joinFields_and o a b (BitVec.allOnes 8) (BitVec.allOnes 8) 0
    _ = joinFields o a 0 := by simp only [BitVec.and_allOnes, BitVec.and_zero]; rfl

theorem joinFields_and_allBits (o a b : Byte) : joinFields o a b &&& 0xFFFFFF = joinFields o a b :=
  BitVec.and_allOnes

/-- Any three fields select a well-formed instruction: none of the twelve opcodes is called
unrecognized. -/
theorem wellFormed_decodeFields (o a b : Byte) : WellFormed (decodeFields o a b) = true := by
  rcases opcode_cases o with ⟨m, rfl⟩ | ho
  · cases m <;> rfl
  · rw [decodeFields_unrecognized ho]
    exact decide_eq_true ho

/-- The word of the instruction that three fields select holds the fields its row looks at, and 0 in
those it ignores (spec/30_encoding.md R87, R90). -/
theorem encode_decodeFields (o a b : Byte) :
    encode (decodeFields o a b) = joinFields o a b &&& (decodeFields o a b).usedBits := by
  rcases opcode_cases o with ⟨m, rfl⟩ | ho
  · cases m with
    | nop | ret => exact (joinFields_and_opcodeBits ..).symm
    | jmp | call | push | pop => exact (joinFields_and_operand1Bits ..).symm
    | ldi | mov | out | inp | sts | lds => exact (joinFields_and_allBits ..).symm
  · rw [decodeFields_unrecognized ho]
    exact (joinFields_and_opcodeBits ..).symm

/-- Settles O3: a word is its three fields, so the two facts about fields are facts about the word. -/
theorem encodeOfDecodeClearsIgnoredFields : Obligations.EncodeOfDecodeClearsIgnoredFields := by
  intro w
  refine ⟨wellFormed_decodeFields .., ?_⟩
  calc encode (decode w)
      = joinFields (fieldOpcode w) (fieldOp1 w) (fieldOp2 w) &&& (decode w).usedBits := encode_decodeFields ..
    _ = w &&& (decode w).usedBits := by rw [joinFields_fields]

/-- Settles O4: the decoder sees the three fields of the word, and dispatches on the first. -/
theorem opcodeFieldSelectsInstruction : Obligations.OpcodeFieldSelectsInstruction := by
  refine ⟨fun a b => ?_, fun o a b ho => ?_, fun w => ⟨_, _, _, (joinFields_fields w).symm⟩, rfl⟩
  · simp only [decode_joinFields]
    exact ⟨rfl, rfl, rfl, rfl, rfl, rfl, rfl, rfl, rfl, rfl, rfl, rfl⟩
  · rw [decode_joinFields]
    exact decodeFields_unrecognized ho a b

/-- Settles O1, word by word. -/
theorem workedWordsDecodeAndEncode : Obligations.WorkedWordsDecodeAndEncode := by
  unfold Obligations.WorkedWordsDecodeAndEncode
  decide

end Sys2Proof
end

section
/-! SUPPORT. The assembler: a line's operands are read back as the instruction's, and the text of an
instruction's line (spec/30_encoding.md R89). -/

namespace Sys2Proof.Machine

open Sys2Proof

variable {i : Instr} {m : Mnemonic}

theorem regOperandsInRange_iff : RegOperandsInRange i = true ↔ ∀ r ∈ i.regOperands, r.toNat < 32 := by
  simp [RegOperandsInRange]

theorem regOperandsInRange_eq_false_iff :
    RegOperandsInRange i = false ↔ ∃ r ∈ i.regOperands, 32 ≤ r.toNat := by
  simp [RegOperandsInRange]

/-- A register operand is read back from its index. -/
theorem asmReg_reg_toNat {r : Byte} (h : r.toNat < 32) : asmReg (.reg r.toNat) = some r := by
  simp [asmReg, h]

/-- A byte operand is read back from its number. -/
@[simp] theorem asmByte_num_toNat (source : List AsmLine) (a : Byte) :
    asmByte source (.num a.toNat) = some a := by
  simp [asmByte, a.isLt]

/-- The line of an instruction that has a spelling. -/
theorem lineOf_of_mnemonic (hm : i.mnemonic = some m) (hr : RegOperandsInRange i = true) :
    lineOf i = some ⟨none, m, asmOperands i⟩ := by
  simp [lineOf, hm, hr]

/-- The operands of an instruction in range, behind its mnemonic, are read back as the instruction. -/
theorem asmInstr_asmOperands (source : List AsmLine) (label : Option String) (hm : i.mnemonic = some m)
    (hr : RegOperandsInRange i = true) : asmInstr source ⟨label, m, asmOperands i⟩ = some i := by
  have hreg : ∀ r ∈ i.regOperands, asmReg (.reg r.toNat) = some r :=
    fun r h => asmReg_reg_toNat (regOperandsInRange_iff.mp hr r h)
  cases i with
  | nop | ret => cases hm; rfl
  | jmp | call => cases hm; simp [asmInstr, asmOperands]
  | ldi | mov | out | inp | sts | lds | push | pop =>
    cases hm
    simp only [Instr.regOperands, List.forall_mem_cons] at hreg
    simp [asmInstr, asmOperands, hreg]
  | unrecognized => cases hm

theorem assemble_singleton (l : AsmLine) : assemble [l] = (asmInstr [l] l).map fun i => [encode i] := by
  cases h : asmInstr [l] l <;> simp [assemble, h]

/-- Settles O6: the line holds the operands, and they are read back in field order. -/
theorem assembledLineIsEncoding : Obligations.AssembledLineIsEncoding := by
  intro i hm hr
  obtain ⟨m, hm⟩ := Option.ne_none_iff_exists'.mp hm
  refine ⟨⟨none, m, asmOperands i⟩, lineOf_of_mnemonic hm hr, ?_⟩
  rw [assemble_singleton, asmInstr_asmOperands _ _ hm hr, Option.map_some]

/-! The text of a line, by the forms of its operands: `R` stands behind the space or the comma. -/

theorem lineText_num (label : Option String) (m : Mnemonic) (n : Nat) :
    lineText ⟨label, m, [.num n]⟩ = m.name ++ " " ++ toString n := rfl

theorem lineText_reg (label : Option String) (m : Mnemonic) (n : Nat) :
    lineText ⟨label, m, [.reg n]⟩ = m.name ++ " R" ++ toString n := by
  simp only [lineText, operandsText, operandText, String.append_assoc]
  rfl

theorem lineText_reg_num (label : Option String) (m : Mnemonic) (n k : Nat) :
    lineText ⟨label, m, [.reg n, .num k]⟩ = m.name ++ " R" ++ toString n ++ ", " ++ toString k := by
  simp only [lineText, operandsText, operandText, String.append_assoc]
  rfl

theorem lineText_num_reg (label : Option String) (m : Mnemonic) (k n : Nat) :
    lineText ⟨label, m, [.num k, .reg n]⟩ = m.name ++ " " ++ toString k ++ ", R" ++ toString n := by
  simp only [lineText, operandsText, operandText, String.append_assoc]
  rfl

theorem lineText_reg_reg (label : Option String) (m : Mnemonic) (n k : Nat) :
    lineText ⟨label, m, [.reg n, .reg k]⟩ = m.name ++ " R" ++ toString n ++ ", R" ++ toString k := by
  simp only [lineText, operandsText, operandText, String.append_assoc]
  rfl

/-- The text of an instruction that has a spelling is its line's. -/
theorem asmText_of_lineText {text : String} (hm : i.mnemonic = some m) (hr : RegOperandsInRange i = true)
    (h : lineText ⟨none, m, asmOperands i⟩ = text) : asmText i = some text := by
  rw [asmText, lineOf_of_mnemonic hm hr, Option.map_some, h]

/-- A register index of 32 or more has no spelling, and an unrecognized opcode no mnemonic. -/
theorem asmText_eq_none (h : (∃ r ∈ i.regOperands, 32 ≤ r.toNat) ∨ i.mnemonic = none) :
    asmText i = none := by
  rcases h with hbad | hm
  · simp [asmText, lineOf, regOperandsInRange_eq_false_iff.mpr hbad]
  · simp [asmText, lineOf, hm]

/-- Settles O7, by the forms of the operands. -/
theorem assemblerTextSpellsInstruction : Obligations.AssemblerTextSpellsInstruction := by
  refine ⟨rfl, rfl, fun a => ?_, fun r a hr => ?_, fun d r hd hr => ?_, fun i h => asmText_eq_none h⟩
  · exact ⟨asmText_of_lineText rfl rfl (lineText_num ..), asmText_of_lineText rfl rfl (lineText_num ..)⟩
  · have hone : ∀ {i : Instr}, i.regOperands = [r] → RegOperandsInRange i = true :=
      fun h => regOperandsInRange_iff.mpr (by simpa [h] using hr)
    exact ⟨asmText_of_lineText rfl (hone rfl) (lineText_reg_num ..),
      asmText_of_lineText rfl (hone rfl) (lineText_num_reg ..),
      asmText_of_lineText rfl (hone rfl) (lineText_reg_num ..),
      asmText_of_lineText rfl (hone rfl) (lineText_num_reg ..),
      asmText_of_lineText rfl (hone rfl) (lineText_reg_num ..),
      asmText_of_lineText rfl (hone rfl) (lineText_reg ..),
      asmText_of_lineText rfl (hone rfl) (lineText_reg ..)⟩
  · have htwo : RegOperandsInRange (.mov d r) = true :=
      regOperandsInRange_iff.mpr (by simp [Instr.regOperands, hd, hr])
    exact asmText_of_lineText rfl htwo (lineText_reg_reg ..)

end Sys2Proof.Machine
end

section
/-! SUPPORT. The transitions of the FSM (spec/40_fsm_cycle.md R100-R107): what each one leaves
unchanged, the full-cycle-step as a number of single-steps, and the outcome tag. -/

namespace Sys2Proof.Machine

open Sys2Proof

variable {s t : State} {c : ResetCause}

/-- Settles O8: the state after FETCH is the state before it with four fields written. -/
theorem fetchReadsAtPcAndIncrements : Obligations.FetchReadsAtPcAndIncrements := by
  intro s hs
  have hpc : (s.pc + 1).toNat = (s.pc.toNat + 1) % 256 := BitVec.toNat_add ..
  exact ⟨fetchTransition s, singleStep_fetch hs, rfl, rfl, hpc, rfl, fun _ => rfl, fun _ => rfl,
    ⟨rfl, rfl⟩, rfl, rfl, rfl, rfl, rfl, rfl, rfl, rfl⟩

theorem fieldOpcode_toNat (w : Word24) : (fieldOpcode w).toNat = w.toNat / 65536 := by
  have hw := w.isLt
  simp only [fieldOpcode, BitVec.extractLsb'_toNat, Nat.shiftRight_eq_div_pow]
  omega

theorem fieldOp1_toNat (w : Word24) : (fieldOp1 w).toNat = w.toNat / 256 % 256 := by
  simp only [fieldOp1, BitVec.extractLsb'_toNat, Nat.shiftRight_eq_div_pow]

theorem fieldOp2_toNat (w : Word24) : (fieldOp2 w).toNat = w.toNat % 256 := by
  simp only [fieldOp2, BitVec.extractLsb'_toNat, Nat.shiftRight_zero]

/-- Settles O9: the state after DECODE is the state before it with the three fields of IR written. -/
theorem decodeExtractsFields : Obligations.DecodeExtractsFields := by
  intro s hs
  exact ⟨decodeTransition s, singleStep_decode hs, fieldOpcode_toNat s.ir, fieldOp1_toNat s.ir,
    fieldOp2_toNat s.ir, rfl, fun _ => rfl, fun _ => rfl, ⟨rfl, rfl⟩, rfl, rfl, rfl, rfl, rfl, rfl, rfl, rfl⟩

theorem resetOf_fullReset (s : State) : ResetOf s (fullReset s) :=
  ⟨fullReset_reg s, rfl, rfl, rfl, rfl, rfl, rfl, rfl, rfl, rfl, fullReset_memRead s, rfl, rfl, rfl, rfl⟩

theorem mnemonic_decodeFields (m : Mnemonic) (a b : Byte) :
    (decodeFields m.opcode a b).mnemonic = some m := by
  cases m <;> rfl

/-- In EXECUTE an opcode outside the twelve is unrecognized, whatever the operand fields are. -/
theorem decodedInstr_unrecognized (ho : opcodeCount ≤ s.opc.toNat) :
    decodedInstr s = .unrecognized s.opc :=
  decodeFields_unrecognized ho s.op1 s.op2

/-- EXECUTE of an opcode outside the twelve is the full reset: writing FETCH changes nothing after it. -/
theorem singleStep_unrecognized (hs : s.state = .execute) (ho : opcodeCount ≤ s.opc.toNat) :
    singleStep s = .next (fullReset s) := by
  rw [singleStep_execute hs, executeTransition, decodedInstr_unrecognized ho]
  rfl

/-- Settles O10: the transition is the rule of the decoded instruction and then the write of FETCH. -/
theorem executeDispatchesOnOpcode : Obligations.ExecuteDispatchesOnOpcode := by
  intro s hs
  have hstep : singleStep s =
      andThen (exec (decodeFields s.opc s.op1 s.op2) s) fun t => .next (t.setState .fetch) :=
    singleStep_execute hs
  refine ⟨fun m hm => ⟨hm ▸ mnemonic_decodeFields m .., fun t ht => ?_, fun f hf => ?_⟩, fun hne => ?_⟩
  · rw [hstep, ht, andThen_next]
  · rw [hstep, hf, andThen_fault]
  · rcases opcode_cases s.opc with ⟨m, hm⟩ | ho
    · exact absurd hm (hne m)
    · exact ⟨fullReset s, singleStep_unrecognized hs ho, resetOf_fullReset s⟩

/-- Where each transition leaves the FSM. -/
theorem singleStep_state (h : singleStep s = .next t) :
    (s.state = .fetch ∧ t.state = .decode) ∨ (s.state = .decode ∧ t.state = .execute) ∨
      ((s.state = .execute ∨ s.state = .invalid) ∧ t.state = .fetch) := by
  rcases singleStep_cases h with ⟨hs, rfl⟩ | ⟨hs, rfl⟩ | ⟨hs, u, -, rfl⟩ | ⟨hs, rfl⟩
  · exact .inl ⟨hs, rfl⟩
  · exact .inr (.inl ⟨hs, rfl⟩)
  · exact .inr (.inr ⟨.inl hs, rfl⟩)
  · exact .inr (.inr ⟨.inr hs, rfl⟩)

/-- A transition from EXECUTE that ends in a next state returns to FETCH, the full reset among them. -/
theorem state_of_singleStep_execute (hs : s.state = .execute) (h : singleStep s = .next t) :
    t.state = .fetch := by
  simpa [hs] using singleStep_state h

/-- Settles O11, by where each transition leaves the FSM. -/
theorem invalidStateResets : Obligations.InvalidStateResets := by
  refine ⟨fun s hs => ⟨fullReset s, singleStep_invalid hs, resetOf_fullReset s⟩, fun s t h => ?_⟩
  rcases singleStep_state h with ⟨-, ht⟩ | ⟨-, ht⟩ | ⟨-, ht⟩ <;> simp [ht]

theorem singleSteps_succ (n : Nat) (h : singleStep s = .next t) :
    singleSteps (n + 1) s = singleSteps n t := by
  rw [singleSteps, h, andThen_next]

theorem singleSteps_one (s : State) : singleSteps 1 s = singleStep s := andThen_eta _

theorem singleSteps_two (hs : s.state = .decode) : singleSteps 2 s = singleStep (decodeTransition s) := by
  rw [singleSteps_succ 1 (singleStep_decode hs), singleSteps_one]

theorem singleSteps_three (hs : s.state = .fetch) : singleSteps 3 s = singleStep (inExecute s) := by
  rw [singleSteps_succ 2 (singleStep_fetch hs), singleSteps_two rfl, decode_fetch_eq]

theorem singleSteps_four (hs : s.state = .invalid) :
    singleSteps 4 s = singleStep (inExecute (fullReset s)) := by
  rw [singleSteps_succ 3 (singleStep_invalid hs), singleSteps_three rfl]

/-- A full-cycle-step ends with the transition of a state in EXECUTE (spec/40_fsm_cycle.md R105). -/
theorem step_ends_in_execute (s : State) : ∃ u, u.state = .execute ∧ step s = singleStep u := by
  cases hs : s.state with
  | fetch => exact ⟨inExecute s, rfl, step_fetch hs⟩
  | decode => exact ⟨decodeTransition s, rfl, step_decode hs⟩
  | execute => exact ⟨s, hs, step_execute hs⟩
  | invalid => exact ⟨inExecute (fullReset s), rfl, step_invalid hs⟩

/-- Settles O12: from each FSM state both sides are the same last transition, one from EXECUTE. -/
theorem fullCycleEndsAfterExecute : Obligations.FullCycleEndsAfterExecute := by
  intro s
  refine ⟨fun hs => (step_fetch hs).trans (singleSteps_three hs).symm,
    fun hs => (step_decode hs).trans (singleSteps_two hs).symm,
    fun hs => (step_execute hs).trans (singleSteps_one s).symm,
    fun hs => (step_invalid hs).trans (singleSteps_four hs).symm, fun t ht => ?_⟩
  obtain ⟨u, hu, hstep⟩ := step_ends_in_execute s
  exact state_of_singleStep_execute hu (hstep ▸ ht)

/-- Settles O13: the two states between are those after FETCH and after DECODE. -/
theorem everyInstructionTakesThreeTransitions : Obligations.EveryInstructionTakesThreeTransitions := by
  intro s hs
  exact ⟨fetchTransition s, inExecute s, singleStep_fetch hs, rfl, singleStep_decode rfl, rfl,
    step_fetch hs, fun t => state_of_singleStep_execute rfl⟩

/-- Settles O14, by the outcome of the instruction's rule. -/
theorem stepRunsDecodedInstruction : Obligations.StepRunsDecodedInstruction := by
  rintro s i hs rfl
  rw [step_fetch_exec hs]
  refine ⟨fun t ht => ?_, fun f hf => ?_, fun r hr => ?_⟩
  · rw [ht, andThen_next]
  · rw [hf, andThen_fault]
  · rw [hr, andThen_refused]

theorem outcome_ne_refused (e : Except Fault State) (r : Refusal) : outcome e ≠ .refused r := by
  cases e <;> simp

/-- Every instruction's rule has a meaning: it ends in a next state or a model fault. -/
theorem exec_ne_refused (i : Instr) (s : State) (r : Refusal) : exec i s ≠ .refused r := by
  cases i with
  | nop | jmp | unrecognized => exact nofun
  | ldi | mov | out | inp | sts | lds | call | ret | push | pop => exact outcome_ne_refused _ r

theorem singleStep_ne_refused (s : State) (r : Refusal) : singleStep s ≠ .refused r := by
  cases hs : s.state with
  | fetch => simp [singleStep_fetch hs]
  | decode => simp [singleStep_decode hs]
  | execute =>
    rw [singleStep_execute hs, executeTransition]
    cases he : exec (decodedInstr s) s with
    | next t => simp
    | fault f => simp
    | refused r' => exact absurd he (exec_ne_refused _ s r')
  | invalid => simp [singleStep_invalid hs]

theorem taggedStep_of_cause (h : singleStep s = .next t) (hc : resetCause s = some c) :
    taggedStep s = .reset c t := by
  simp only [taggedStep, h, hc]

theorem taggedStep_of_no_cause (h : singleStep s = .next t) (hc : resetCause s = none) :
    taggedStep s = .ok t := by
  simp only [taggedStep, h, hc]

theorem resetCause_unrecognized (hs : s.state = .execute) (ho : opcodeCount ≤ s.opc.toNat) :
    resetCause s = some (.unrecognizedOpcode s.opc s.mar) := by
  simp only [resetCause, hs, decodedInstr_unrecognized ho]

theorem resetCause_invalid (hs : s.state = .invalid) : resetCause s = some .unrecognizedState := by
  simp only [resetCause, hs]

/-- No reset has a cause outside the invalid state and the unrecognized opcodes of EXECUTE. -/
theorem resetCause_eq_none (hs : s.state ≠ .invalid) (ho : s.state = .execute → s.opc.toNat < opcodeCount) :
    resetCause s = none := by
  cases hst : s.state with
  | fetch => simp only [resetCause, hst]
  | decode => simp only [resetCause, hst]
  | execute =>
    rcases opcode_cases s.opc with ⟨m, hm⟩ | hge
    · have hdec : (decodedInstr s).mnemonic = some m := by
        rw [decodedInstr, hm]
        exact mnemonic_decodeFields ..
      exact (resetCause_execute_eq_none_iff hst).mpr (by simp [hdec])
    · exact absurd (ho hst) (by omega)
  | invalid => exact absurd hst hs

/-- A transition without a cause of reset is tagged `ok` or `fault`. -/
theorem taggedStep_ok_or_fault (hc : resetCause s = none) :
    (∃ t, taggedStep s = .ok t) ∨ ∃ f, taggedStep s = .fault f := by
  cases h : singleStep s with
  | next t => exact .inl ⟨t, taggedStep_of_no_cause h hc⟩
  | fault f => exact .inr ⟨f, by simp only [taggedStep, h]⟩
  | refused r => exact absurd h (singleStep_ne_refused s r)

/-- Settles O15: the two causes of a full reset give its tag, and no other transition has a cause. -/
theorem outcomeTagIsObservational : Obligations.OutcomeTagIsObservational := by
  intro s
  refine ⟨taggedStep_untagged s, fun hs ho => ⟨fullReset s, ?_, resetOf_fullReset s⟩,
    fun hs => ⟨fullReset s, ?_, resetOf_fullReset s⟩,
    fun hs ho => taggedStep_ok_or_fault (resetCause_eq_none hs ho)⟩
  · exact taggedStep_of_cause (singleStep_unrecognized hs ho) (resetCause_unrecognized hs ho)
  · exact taggedStep_of_cause (singleStep_invalid hs) (resetCause_invalid hs)

end Sys2Proof.Machine
end

section
/-! SUPPORT. The ports of a transition and of a served request (spec/40_fsm_cycle.md R109): what the
transactions do to the stores, and what the ports show of a request. -/

namespace Sys2Proof.Machine

open Sys2Proof

variable {s t : State} {i : Instr} {n : Nat}

/-- No instruction's rule changes a model argument. -/
theorem exec_cfg (h : exec i s = .next t) : t.cfg = s.cfg := by
  rcases exec_next_cases h with ⟨-, rfl⟩ | ⟨_, _, _, -, -, rfl⟩ | ⟨_, _, _, _, -, -, -, rfl⟩ |
    ⟨_, _, _, -, -, rfl⟩ | ⟨_, _, _, -, -, rfl⟩ | ⟨_, _, _, -, -, rfl⟩ | ⟨_, _, _, -, -, rfl⟩ |
    ⟨_, -, rfl⟩ | ⟨_, -, -, rfl⟩ | ⟨_, -, -, rfl⟩ | ⟨_, _, -, -, -, rfl⟩ | ⟨_, _, _, -, -, -, rfl⟩ |
    ⟨_, -, rfl⟩ <;> simp

/-- No transition changes a model argument. -/
theorem singleStep_cfg (h : singleStep s = .next t) : t.cfg = s.cfg := by
  rcases singleStep_cases h with ⟨-, rfl⟩ | ⟨-, rfl⟩ | ⟨-, u, hu, rfl⟩ | ⟨-, rfl⟩
  · rfl
  · rfl
  · exact exec_cfg (t := u) hu
  · rfl

/-- Transactions served in order by the collaborators of a machine with given arguments. -/
def serveAccesses (c : Config) (st : Stores) (as : List PortAccess) : Stores := as.foldl (serveAccess c) st

theorem serveAccesses_append (c : Config) (st : Stores) (as bs : List PortAccess) :
    serveAccesses c st (as ++ bs) = serveAccesses c (serveAccesses c st as) bs := List.foldl_append

/-- The three requests of a full reset bring the stores to those of the state after it. -/
theorem storesOf_fullReset (s : State) :
    storesOf (fullReset s) = serveAccesses s.cfg (storesOf s) resetAccesses := rfl

/-- A data-memory write is one transaction, dropped past DM_SIZE. -/
theorem storesOf_memWrite (s : State) (a : DataAddr) (v : Byte) :
    storesOf (memWrite s a v) = serveAccesses s.cfg (storesOf s) [.dmWrite a v] := by
  by_cases ha : a.toNat < s.cfg.dmSize <;> simp [storesOf, serveAccesses, serveAccess, memWrite, ha]

/-- The transactions of an instruction's rule account for what it does to the stores. -/
theorem storesOf_exec (h : exec i s = .next t) :
    storesOf t = serveAccesses s.cfg (storesOf s) (execAccesses i s) := by
  rcases exec_next_cases h with ⟨rfl, rfl⟩ | ⟨_, _, _, rfl, -, rfl⟩ | ⟨_, _, _, _, rfl, -, -, rfl⟩ |
    ⟨a, r, d, rfl, hd, rfl⟩ | ⟨r, a, d, rfl, hd, rfl⟩ | ⟨a, r, d, rfl, hd, rfl⟩ | ⟨r, a, d, rfl, hd, rfl⟩ |
    ⟨_, rfl, rfl⟩ | ⟨_, rfl, hr, rfl⟩ | ⟨_, rfl, hv, rfl⟩ | ⟨_, _, rfl, hd, hr, rfl⟩ |
    ⟨_, _, _, rfl, hd, hv, rfl⟩ | ⟨_, rfl, rfl⟩
  · rfl
  · rfl
  · rfl
  · rw [execAccesses, regIndex_of_names hd]
    exact storesOf_memWrite ..
  · rw [execAccesses, regIndex_of_names hd]
    rfl
  · rw [execAccesses, regIndex_of_names hd]
    exact storesOf_memWrite ..
  · rw [execAccesses, regIndex_of_names hd]
    rfl
  · rfl
  · rw [execAccesses, push_of_room hr]
    rfl
  · rw [execAccesses, pop_of_answers hv]
    rfl
  · rw [execAccesses, regIndex_of_names hd, accessIf_ok, push_of_room hr]
    rfl
  · rw [execAccesses, regIndex_of_names hd, accessIf_ok, pop_of_answers hv]
    rfl
  · rfl

theorem accesses_fetch (hs : s.state = .fetch) : accesses s = [.pmRead s.pc (pmRead s s.pc)] := by
  simp only [accesses, hs]

theorem accesses_decode (hs : s.state = .decode) : accesses s = [] := by
  simp only [accesses, hs]

theorem accesses_execute (hs : s.state = .execute) : accesses s = execAccesses (decodedInstr s) s := by
  simp only [accesses, hs]

theorem accesses_invalid (hs : s.state = .invalid) : accesses s = resetAccesses := by
  simp only [accesses, hs]

/-- The transactions of a transition account for what it does to the stores. -/
theorem storesOf_singleStep (h : singleStep s = .next t) :
    storesOf t = serveAccesses s.cfg (storesOf s) (accesses s) := by
  rcases singleStep_cases h with ⟨hs, rfl⟩ | ⟨hs, rfl⟩ | ⟨hs, u, hu, rfl⟩ | ⟨hs, rfl⟩
  · rw [accesses_fetch hs]
    rfl
  · rw [accesses_decode hs]
    rfl
  · rw [accesses_execute hs]
    exact storesOf_exec (t := u) hu
  · rw [accesses_invalid hs]
    exact storesOf_fullReset s

/-- The loop of spec/40_fsm_cycle.md R105 that ends in a next state begins with a transition, which is
its last if it started in EXECUTE. -/
theorem cycleLoop_succ_next (h : cycleLoop (n + 1) s = .next t) :
    ∃ u, singleStep s = .next u ∧
      ((s.state = .execute ∧ u = t) ∨ (s.state ≠ .execute ∧ cycleLoop n u = .next t)) := by
  rw [cycleLoop] at h
  cases hu : singleStep s with
  | next u =>
    rw [hu, andThen_next] at h
    refine ⟨u, rfl, ?_⟩
    split at h
    · next he => exact .inl ⟨he, Host.Outcome.next.inj h⟩
    · next he => exact .inr ⟨he, h⟩
  | fault f => rw [hu] at h; cases h
  | refused r => rw [hu] at h; cases h

/-- The transactions of the loop's transitions, in order, account for what it does to the stores. -/
theorem storesOf_cycleLoop (h : cycleLoop n s = .next t) :
    storesOf t = serveAccesses s.cfg (storesOf s) ((cycleStarts n s).flatMap accesses) := by
  induction n generalizing s with
  | zero => cases h; rfl
  | succ n ih =>
    obtain ⟨u, hu, ⟨he, rfl⟩ | ⟨he, hloop⟩⟩ := cycleLoop_succ_next h
    · rw [cycleStarts_execute n he, List.flatMap_singleton]
      exact storesOf_singleStep hu
    · rw [cycleStarts_next n hu he, List.flatMap_cons, serveAccesses_append, ← storesOf_singleStep hu,
        ← singleStep_cfg hu]
      exact ih hloop

/-- Settles O45, by the request: the three of a full reset, one transition's, or the loop's. -/
theorem portAccessesAccountForStores : Obligations.PortAccessesAccountForStores := by
  refine ⟨fun s t => storesOf_singleStep, fun r s t h => ?_⟩
  cases r with
  | reset => cases h; exact storesOf_fullReset s
  | singleStep => exact storesOf_singleStep h
  | fullCycleStep => exact storesOf_cycleLoop h

theorem taggedStep_fetch (hs : s.state = .fetch) : taggedStep s = .ok (fetchTransition s) :=
  taggedStep_of_no_cause (singleStep_fetch hs) (resetCause_eq_none (by simp [hs]) (by simp [hs]))

theorem taggedStep_decode (hs : s.state = .decode) : taggedStep s = .ok (decodeTransition s) :=
  taggedStep_of_no_cause (singleStep_decode hs) (resetCause_eq_none (by simp [hs]) (by simp [hs]))

theorem taggedStep_invalid (hs : s.state = .invalid) :
    taggedStep s = .reset .unrecognizedState (fullReset s) :=
  taggedStep_of_cause (singleStep_invalid hs) (resetCause_invalid hs)

/-- The transitions of a full-cycle-step asked for in FETCH (spec/40_fsm_cycle.md R106). -/
theorem requestStarts_fetch (hs : s.state = .fetch) :
    requestStarts .fullCycleStep s = [s, fetchTransition s, inExecute s] := cycleStarts_fetch 1 hs

/-- A full-cycle-step asked for in the invalid state begins with the reset, and goes on as one asked
for after it (decision D12). -/
theorem requestStarts_invalid (hs : s.state = .invalid) :
    requestStarts .fullCycleStep s = s :: requestStarts .fullCycleStep (fullReset s) := by
  rw [requestStarts_fetch (fullReset_state s)]
  exact cycleStarts_invalid 0 hs

theorem requestAccesses_fetch (hs : s.state = .fetch) :
    requestAccesses .fullCycleStep s =
      .pmRead s.pc (pmRead s s.pc) :: execAccesses (decode (pmRead s s.pc)) (inExecute s) := by
  rw [requestAccesses, requestStarts_fetch hs, List.flatMap_cons, accesses_fetch hs, List.flatMap_cons,
    accesses_decode (fetchTransition_state s), List.flatMap_singleton, accesses_execute (s := inExecute s) rfl]
  rfl

theorem requestTags_fetch (hs : s.state = .fetch) :
    requestTags .fullCycleStep s =
      [.ok (fetchTransition s), .ok (inExecute s), taggedStep (inExecute s)] := by
  rw [requestTags, requestStarts_fetch hs, List.map_cons, taggedStep_fetch hs, List.map_cons,
    taggedStep_decode rfl]
  rfl

theorem requestAccesses_invalid (hs : s.state = .invalid) :
    requestAccesses .fullCycleStep s =
      resetAccesses ++ requestAccesses .fullCycleStep (fullReset s) := by
  rw [requestAccesses, requestStarts_invalid hs, List.flatMap_cons, accesses_invalid hs]
  rfl

theorem requestTags_invalid (hs : s.state = .invalid) :
    requestTags .fullCycleStep s =
      .reset .unrecognizedState (fullReset s) :: requestTags .fullCycleStep (fullReset s) := by
  rw [requestTags, requestStarts_invalid hs, List.map_cons, taggedStep_invalid hs]
  rfl

/-- The last transition of a full-cycle-step starts in a state whose single-step is its outcome, and
there are as many as the FSM state says (spec/40_fsm_cycle.md R105). -/
theorem requestStarts_length_getLast (s : State) :
    (requestStarts .fullCycleStep s).length = cycleLength s.state ∧
      ∃ u, (requestStarts .fullCycleStep s).getLast? = some u ∧ step s = singleStep u := by
  cases hs : s.state with
  | fetch =>
    rw [requestStarts_fetch hs]
    exact ⟨rfl, _, rfl, step_fetch hs⟩
  | decode =>
    rw [requestStarts, cycleStarts_decode 2 hs]
    exact ⟨rfl, _, rfl, step_decode hs⟩
  | execute =>
    rw [requestStarts, cycleStarts_execute 3 hs]
    exact ⟨rfl, _, rfl, step_execute hs⟩
  | invalid =>
    rw [requestStarts_invalid hs, requestStarts_fetch (fullReset_state s)]
    exact ⟨rfl, _, rfl, step_invalid hs⟩

/-- The last tag of a full-cycle-step, without its cause, is its outcome. -/
theorem requestTags_getLast (s : State) :
    ((requestTags .fullCycleStep s).getLast?).map Tagged.untagged = some (step s) := by
  obtain ⟨-, u, hlast, hstep⟩ := requestStarts_length_getLast s
  rw [requestTags, List.getLast?_map, hlast, Option.map_some, Option.map_some, taggedStep_untagged, hstep]

/-- Settles O46: a reset and a single-step by definition, a full-cycle-step by its transitions. -/
theorem requestsOnThePorts : Obligations.RequestsOnThePorts := by
  refine ⟨fun s => ⟨rfl, rfl, rfl, rfl⟩, fun c => ⟨rfl, rfl, rfl⟩, fun s hs => ?_, fun s hs => ?_, fun s => ?_⟩
  · exact ⟨requestAccesses_fetch hs, _, _, requestTags_fetch hs, rfl, rfl⟩
  · exact ⟨requestAccesses_invalid hs, requestTags_invalid hs⟩
  · refine ⟨?_, requestTags_getLast s⟩
    rw [requestTags, List.length_map]
    exact (requestStarts_length_getLast s).1

end Sys2Proof.Machine
end

section
/-! SUPPORT. NOP, LDI and MOV (spec/41_register_ops.md R120-R122): what the write of one register changes
and what it leaves, and the decoded fields a cycle of NOP leaves behind. -/

namespace Sys2Proof.Machine

open Sys2Proof

theorem sameRegsBut_setReg (s : State) (d : Fin 32) (v : Byte) : SameRegsBut d s (s.setReg d v) :=
  fun _ hne => s.setReg_reg_of_ne v hne

/-- Writing a register with its own value leaves the whole file. -/
theorem sameRegs_setReg_reg (s : State) (d : Fin 32) : SameRegs s (s.setReg d (s.reg d)) := by
  intro i
  by_cases h : i = d
  · rw [h, State.setReg_reg_self]
  · exact s.setReg_reg_of_ne _ h

theorem sameRest_setReg (s : State) (d : Fin 32) (v : Byte) : SameRest s (s.setReg d v) :=
  ⟨rfl, rfl, rfl, rfl, rfl, rfl, rfl, rfl, rfl, rfl⟩

/-- The instruction keeps the opcode field it was selected by, an unrecognized one too. -/
theorem opcode_decodeFields (o a b : Byte) : (decodeFields o a b).opcode = o := by
  rcases opcode_cases o with ⟨m, rfl⟩ | ho
  · cases m <;> rfl
  · rw [decodeFields_unrecognized ho]
    rfl

theorem fieldOpcode_of_decode {w : Word24} {i : Instr} (h : decode w = i) : fieldOpcode w = i.opcode := by
  rw [← h]
  exact (opcode_decodeFields ..).symm

/-- Settles O16: NOP's rule answers the state itself, so its cycle ends in the state that EXECUTE starts
in, but for the write of FETCH. -/
theorem nopHasNoEffect : Obligations.NopHasNoEffect := by
  refine ⟨fun a b => decode_joinFields .., fun s => rfl, fun s hs hd => ?_⟩
  have hstep : step s = .next ((inExecute s).setState .fetch) := by
    rw [step_fetch_exec hs, hd]
    rfl
  have hpc : (s.pc + 1).toNat = (s.pc.toNat + 1) % 256 := BitVec.toNat_add ..
  have hopc : fieldOpcode (pmRead s s.pc) = 0 := fieldOpcode_of_decode hd
  exact ⟨_, hstep, hpc, rfl, rfl, hopc, rfl, rfl, rfl, fun _ => rfl, fun _ => rfl, ⟨rfl, rfl⟩,
    rfl, rfl, rfl, rfl, rfl⟩

/-- Settles O17: where the operand names a register the rule is the write of that register, and where it
names none RegIndex stops it. -/
theorem ldiLoadsConstant : Obligations.LdiLoadsConstant := by
  refine fun op1 op2 => ⟨decode_joinFields .., fun s d hd => ?_, fun s hb => exec_of_regBad _ op1 [] rfl hb⟩
  exact ⟨s.setReg d op2, execLdi_of_names hd, s.setReg_reg_self d op2, sameRegsBut_setReg s d op2, rfl,
    fun _ => rfl, ⟨rfl, rfl⟩, sameRest_setReg s d op2⟩

/-- Settles O18: where both operands name registers the rule is the write of one register; otherwise the
first operand that names none is reported. -/
theorem movCopiesRegister : Obligations.MovCopiesRegister := by
  refine fun op1 op2 => ⟨decode_joinFields .., fun s d r hd hr => ?_,
    fun s hb => exec_of_regBad _ op1 [op2] rfl hb, fun s hn hb => ?_⟩
  · have hself : d = r → SameRegs s (s.setReg d (s.reg r)) := fun h => h ▸ sameRegs_setReg_reg s d
    exact ⟨s.setReg d (s.reg r), execMov_of_names hd hr, s.setReg_reg_self d _, sameRegsBut_setReg s d _,
      hself, rfl, fun _ => rfl, ⟨rfl, rfl⟩, sameRest_setReg s d _⟩
  · obtain ⟨d, hd⟩ := names_of_not_bad hn
    exact execMov_of_second_bad hd hb

end Sys2Proof.Machine
end

section
/-! SUPPORT. OUT, IN, STS and LDS (spec/42_data_memory_ops.md R140-R145): what one data-memory write
leaves, and a byte stored on either page that is loaded back from it. -/

namespace Sys2Proof.Machine

open Sys2Proof

variable {s t : State}

/-- What an operand names depends on the model arguments only. -/
theorem RegNames.congr {i : Byte} {d : Fin 32} (h : RegNames s i d) (hc : t.cfg = s.cfg) : RegNames t i d := by
  simpa only [RegNames, hc] using h

/-- No operand's I/O-page address is an operand's extended-page address. -/
theorem ioAddr_ne_extAddr (a b : Byte) : ioAddr a ≠ extAddr b := by
  intro h
  have hn : a.toNat = b.toNat + 256 := by rw [← ioAddr_toNat, h, extAddr_toNat]
  have := a.isLt
  omega

theorem sameDataBut_memWrite (s : State) (a : DataAddr) (v : Byte) : SameDataBut a s (memWrite s a v) :=
  fun _ hne => memRead_memWrite_of_ne s v hne

/-- A write past DM_SIZE is dropped (decision D4). -/
theorem sameData_memWrite_of_le {a : DataAddr} (v : Byte) (ha : s.cfg.dmSize ≤ a.toNat) :
    SameData s (memWrite s a v) := by
  rw [memWrite_beyond s a v (by omega)]
  exact fun _ => rfl

theorem sameRest_memWrite (s : State) (a : DataAddr) (v : Byte) : SameRest s (memWrite s a v) := by
  simp [SameRest]

/-- A write changes nothing outside data memory. -/
theorem memWrite_keeps_core (s : State) (a : DataAddr) (v : Byte) :
    SameRegs s (memWrite s a v) ∧ (memWrite s a v).pc = s.pc ∧ SameStack s (memWrite s a v) ∧
      SameRest s (memWrite s a v) :=
  ⟨fun i => memWrite_reg s a v i, memWrite_pc .., ⟨memWrite_stack .., memWrite_lastPushed ..⟩,
    sameRest_memWrite s a v⟩

/-- Writing one register changes nothing else. -/
theorem setReg_keeps_rest (s : State) (d : Fin 32) (v : Byte) :
    SameRegsBut d s (s.setReg d v) ∧ (s.setReg d v).pc = s.pc ∧ SameData s (s.setReg d v) ∧
      SameStack s (s.setReg d v) ∧ SameRest s (s.setReg d v) :=
  ⟨sameRegsBut_setReg s d v, rfl, fun _ => rfl, ⟨rfl, rfl⟩, sameRest_setReg s d v⟩

/-- Settles O43: no instruction of either chain changes which register an operand names, all 512 bytes
exist, and neither page has an address of the other. -/
theorem storeThenLoadReturnsValue : Obligations.StoreThenLoadReturnsValue := by
  intro s r q k a d e hd he hwf hsize
  have hexists (b : DataAddr) : b.toNat < s.cfg.dmSize := lt_of_lt_of_le b.isLt hsize
  constructor
  · refine ⟨_, _, _, execLdi_of_names hd, execOut_of_names (hd.congr rfl),
      execIn_of_names (he.congr (memWrite_cfg ..)), ?_, fun b => ?_⟩
    · rw [State.setReg_reg_self, memRead_memWrite_self (s.setReg d k) _ _ hwf (hexists _),
        State.setReg_reg_self]
    · exact memRead_memWrite_of_ne (s.setReg d k) _ (ioAddr_ne_extAddr a b).symm
  · refine ⟨_, _, execSts_of_names hd, execLds_of_names (he.congr (memWrite_cfg ..)), ?_, fun b => ?_⟩
    · rw [State.setReg_reg_self, memRead_memWrite_self s _ _ hwf (hexists _)]
    · exact memRead_memWrite_of_ne s _ (ioAddr_ne_extAddr b a)

/-- Settles O19: where the operand names a register the rule is one write at the I/O-page address. -/
theorem outStoresToIoPage : Obligations.OutStoresToIoPage := by
  refine fun op1 op2 => ⟨decode_joinFields .., ioAddr_toNat op1, fun s r hr => ?_,
    fun s hb => exec_of_regBad _ op2 [] rfl hb⟩
  refine ⟨memWrite s (ioAddr op1) (s.reg r), execOut_of_names hr, fun hwf ha => ?_, fun ha => ?_,
    sameDataBut_memWrite s _ _, memWrite_keeps_core ..⟩
  · exact memRead_memWrite_self s _ _ hwf (by rwa [ioAddr_toNat])
  · exact sameData_memWrite_of_le _ (by rwa [ioAddr_toNat])

/-- Settles O20: where the operand names a register the rule is the write of that register with the byte
read on the I/O page. -/
theorem inLoadsFromIoPage : Obligations.InLoadsFromIoPage :=
  fun op1 op2 => ⟨decode_joinFields .., ioAddr_toNat op2,
    fun s d hd => ⟨_, execIn_of_names hd, s.setReg_reg_self d _, setReg_keeps_rest ..⟩,
    fun _ hb => exec_of_regBad _ op1 [] rfl hb⟩

/-- Settles O21: where the operand names a register the rule is one write at the extended-page address,
which no I/O-page address equals. -/
theorem stsStoresToExtendedPage : Obligations.StsStoresToExtendedPage := by
  refine fun op1 op2 => ⟨decode_joinFields .., extAddr_toNat op1, fun s r hr => ?_,
    fun s hb => exec_of_regBad _ op2 [] rfl hb⟩
  refine ⟨memWrite s (extAddr op1) (s.reg r), execSts_of_names hr, fun hwf ha => ?_, fun ha => ?_,
    sameDataBut_memWrite s _ _, fun a => ?_, memWrite_keeps_core ..⟩
  · exact memRead_memWrite_self s _ _ hwf (by rwa [extAddr_toNat])
  · exact sameData_memWrite_of_le _ (by rwa [extAddr_toNat])
  · exact memRead_memWrite_of_ne s _ (ioAddr_ne_extAddr a op1)

/-- Settles O22: where the operand names a register the rule is the write of that register with the byte
read on the extended page. -/
theorem ldsLoadsFromExtendedPage : Obligations.LdsLoadsFromExtendedPage :=
  fun op1 op2 => ⟨decode_joinFields .., extAddr_toNat op2,
    fun s d hd => ⟨_, execLds_of_names hd, s.setReg_reg_self d _, setReg_keeps_rest ..⟩,
    fun _ hb => exec_of_regBad _ op1 [] rfl hb⟩

end Sys2Proof.Machine
end

section
/-! SUPPORT. JMP, CALL and RET (spec/43_control_transfer.md R160-R163): what a write of PC leaves, a step
from FETCH against the rule of the fetched instruction, and the state a jump to itself repeats. -/

namespace Sys2Proof.Machine

open Sys2Proof

variable {s u : State} {i : Instr}

/-- A jump changes nothing but PC. -/
theorem setPc_keeps_rest (s : State) (a : Byte) :
    SameRegs s (s.setPc a) ∧ SameData s (s.setPc a) ∧ SameStack s (s.setPc a) ∧ SameRest s (s.setPc a) :=
  ⟨fun _ => rfl, fun _ => rfl, ⟨rfl, rfl⟩, rfl, rfl, rfl, rfl, rfl, rfl, rfl, rfl, rfl, rfl⟩

/-- Settles O23: the rule is the write of PC, in every state. -/
theorem jmpSetsPc : Obligations.JmpSetsPc :=
  fun op1 _ => ⟨decode_joinFields .., fun s => ⟨s.setPc op1, rfl, rfl, setPc_keeps_rest s op1⟩⟩

/-- A step from FETCH is the rule of the fetched instruction and the return to FETCH. -/
theorem step_fetch_of_exec (hs : s.state = .fetch) (hd : decode (pmRead s s.pc) = i)
    (h : exec i (inExecute s) = .next u) : step s = .next (u.setState .fetch) :=
  (stepRunsDecodedInstruction s i hs hd).1 u h

/-- A model fault of the fetched instruction's rule is the outcome of the step. -/
theorem step_fetch_of_fault {f : Fault} (hs : s.state = .fetch) (hd : decode (pmRead s s.pc) = i)
    (h : exec i (inExecute s) = .fault f) : step s = .fault f :=
  (stepRunsDecodedInstruction s i hs hd).2.1 f h

/-- The state at the end of a CALL's cycle: FETCH has moved PC past the CALL, and that address is pushed. -/
def afterCall (s : State) (a : Byte) : State :=
  (((inExecute s).pushed (s.pc + 1)).setPc a).setState .fetch

theorem step_call {a : Byte} (hs : s.state = .fetch) (hr : HasRoom s) (hd : decode (pmRead s s.pc) = .call a) :
    step s = .next (afterCall s a) :=
  step_fetch_of_exec hs hd (execCall_of_room hr)

theorem pc_succ_toNat (s : State) : (s.pc + 1).toNat = (s.pc.toNat + 1) % 256 := BitVec.toNat_add ..

/-- Settles O24: with room the rule is a push of PC and the write of PC; without, the push stops it, and so
a cycle that ends in a next state had room. -/
theorem callPushesReturnAddress : Obligations.CallPushesReturnAddress := by
  refine fun op1 op2 => ⟨decode_joinFields .., fun s hr => ?_, fun s hn => execCall_of_full hn,
    fun s t hs hd ht => ?_⟩
  · exact ⟨(s.pushed s.pc).setPc op1, execCall_of_room hr, rfl, rfl, rfl, fun _ => rfl, fun _ => rfl,
      sameRest_pushed s s.pc⟩
  · by_cases hr : HasRoom s
    · rw [step_call hs hr hd] at ht
      cases ht
      exact pc_succ_toNat s
    · rw [step_fetch_of_fault hs hd (execCall_of_full hr)] at ht
      cases ht

/-- Settles O25: where the pop answers the rule is the pop and the write of PC. -/
theorem retPopsPc : Obligations.RetPopsPc :=
  fun _ _ => ⟨decode_joinFields ..,
    fun s v _ hv => ⟨s.popped.setPc v, execRet_of_answers hv, rfl, hv.rest_eq.symm, rfl, fun _ => rfl,
      fun _ => rfl, sameRest_popped s⟩,
    fun _ hb => execRet_of_bad hb⟩

/-- Settles O42: the CALL's cycle leaves the address after it on top of the stack, and the RET's cycle
takes it from there. -/
theorem callThenRetReturns : Obligations.CallThenRetReturns := by
  intro s a hs hr hcall hret
  have hpop : PopAnswers (inExecute (afterCall s a)) (s.pc + 1) s.stack := .inl rfl
  exact ⟨afterCall s a, _, step_call hs hr hcall, rfl, step_fetch_of_exec rfl hret (execRet_of_answers hpop),
    pc_succ_toNat s, hpop.rest_eq.symm, fun _ => rfl, fun _ => rfl⟩

/-- A word that decodes to a JMP holds its target in the operand1 field (spec/43_control_transfer.md R163). -/
theorem fieldOp1_of_decode_jmp {w : Word24} {a : Byte} (h : decode w = .jmp a) : fieldOp1 w = a := by
  rw [decode, fieldOpcode_of_decode h] at h
  exact Instr.jmp.inj h

/-- The state at the end of the cycle of a jump to itself: PC is where it was, and MAR, IR and the decoded
fields are the jump's. -/
def afterSelfJump (s : State) : State := ((inExecute s).setPc s.pc).setState .fetch

theorem step_selfJump (hs : s.state = .fetch) (hd : decode (pmRead s s.pc) = .jmp s.pc) :
    step s = .next (afterSelfJump s) :=
  step_fetch_of_exec hs hd rfl

/-- The jump is fetched again, and its second cycle writes what its first one did. -/
theorem step_afterSelfJump (hd : decode (pmRead s s.pc) = .jmp s.pc) :
    step (afterSelfJump s) = .next (afterSelfJump s) :=
  step_selfJump (s := afterSelfJump s) rfl hd

/-- A state that a step leads back to is where any number of steps leads. -/
theorem runSteps_of_step_self (h : step s = .next s) (n : Nat) : runSteps n s = .next s := by
  induction n with
  | zero => rfl
  | succ n ih => rw [runSteps, h, andThen_next, ih]

/-- Settles O56: the first cycle leads to a state that every further cycle leads back to. -/
theorem selfJumpRepeatsForever : Obligations.SelfJumpRepeatsForever := by
  intro s hs hd n
  cases n with
  | zero =>
    exact ⟨s, rfl, hs, rfl, fun _ => rfl, fun _ => rfl, ⟨rfl, rfl⟩, rfl, rfl, rfl, rfl, rfl,
      fun h => absurd h (lt_irrefl 0)⟩
  | succ n =>
    have hrun : runSteps (n + 1) s = .next (afterSelfJump s) := by
      rw [runSteps, step_selfJump hs hd, andThen_next, runSteps_of_step_self (step_afterSelfJump hd)]
    exact ⟨afterSelfJump s, hrun, rfl, rfl, fun _ => rfl, fun _ => rfl, ⟨rfl, rfl⟩, rfl, rfl, rfl, rfl, rfl,
      fun _ => ⟨rfl, rfl, rfl, fieldOp1_of_decode_jmp hd, rfl⟩⟩

end Sys2Proof.Machine
end

section
/-! SUPPORT. PUSH and POP (spec/44_stack_ops.md R180-R181): the rule of each is one update of the stack,
for POP with the write of one register, and a pop right after a push answers the pushed byte. -/

namespace Sys2Proof.Machine

open Sys2Proof

theorem popAnswers_pushed (s : State) (v : Byte) : PopAnswers (s.pushed v) v s.stack := .inl rfl

/-- A pop into a register changes nothing but that register and the stack's bytes. -/
theorem popped_setReg_keeps_rest (s : State) (d : Fin 32) (v : Byte) :
    stackTop (s.popped.setReg d v) = stackTop s ∧ (s.popped.setReg d v).pc = s.pc ∧
      SameData s (s.popped.setReg d v) ∧ SameRest s (s.popped.setReg d v) :=
  ⟨rfl, rfl, fun _ => rfl, sameRest_setReg s.popped d v⟩

/-- Settles O26: where the operand names a register the rule is the push of that register, which a full
stack stops; where it names none RegIndex stops it, whatever the stack holds. -/
theorem pushPushesRegister : Obligations.PushPushesRegister := by
  refine fun op1 op2 => ⟨decode_joinFields .., fun s r hr hroom => ?_,
    fun s hb => exec_of_regBad _ op1 [] rfl hb, fun s r hr hfull => execPush_of_full hr hfull⟩
  exact ⟨s.pushed (s.reg r), execPush_of_room hr hroom, rfl, rfl, rfl, fun _ => rfl, fun _ => rfl,
    sameRest_pushed s _⟩

/-- Settles O27: where the operand names a register and the pop answers, the rule is the pop and the write
of that register. After a PUSH the pop answers the pushed byte, and the operand names the register it
named before. -/
theorem popPopsIntoRegister : Obligations.PopPopsIntoRegister := by
  refine fun op1 op2 => ⟨decode_joinFields .., fun s d v rest hd hv => ?_,
    fun s hb => exec_of_regBad _ op1 [] rfl hb, fun s d hd hb => execPop_of_bad hd hb,
    fun s src r d hr hd hroom => ?_⟩
  · exact ⟨s.popped.setReg d v, execPop_of_answers hd hv, s.popped.setReg_reg_self d v,
      sameRegsBut_setReg s.popped d v, hv.rest_eq.symm, popped_setReg_keeps_rest s d v⟩
  · exact ⟨s.pushed (s.reg r), _, execPush_of_room hr hroom,
      execPop_of_answers (hd.congr (State.pushed_cfg ..)) (popAnswers_pushed s (s.reg r)),
      State.setReg_reg_self ..⟩

end Sys2Proof.Machine
end

section
/-! SUPPORT. The bad conditions of spec/60_exceptions.md: which instruction raises which model fault, where
an instruction runs without one, and the reset of an unrecognized opcode. -/

namespace Sys2Proof.Machine

open Sys2Proof

variable {s t : State} {i : Instr} {r v o : Byte} {f : Fault}

/-- `r` is the first register operand of `i` that names no register: the one decision D9 reports. -/
def FirstBad (i : Instr) (s : State) (r : Byte) : Prop :=
  ∃ before after, i.regOperands = before ++ r :: after ∧ RegBad s r ∧ ∀ q ∈ before, ¬ RegBad s q

/-- `i` pushes `v` onto a full stack (spec/20_memory.md R60). -/
def Overflows (i : Instr) (s : State) (v : Byte) : Prop :=
  ¬ HasRoom s ∧ ((∃ a, i = .call a ∧ v = s.pc) ∨ ∃ r d, i = .push r ∧ RegNames s r d ∧ v = s.reg d)

/-- `i` pops an empty stack under STACK_UNDERFLOW = fault (spec/20_memory.md R61). -/
def Underflows (i : Instr) (s : State) : Prop :=
  PopBad s ∧ (i = .ret ∨ ∃ r d, i = .pop r ∧ RegNames s r d)

theorem exists_firstBad (h : ¬ RegsOk i s) : ∃ r, FirstBad i s r := by
  classical
  obtain ⟨q, hq, hbad⟩ : ∃ q ∈ i.regOperands, RegBad s q := by simpa [RegsOk] using h
  obtain ⟨r, hr⟩ : ∃ r, i.regOperands.find? (fun q => decide (RegBad s q)) = some r :=
    Option.isSome_iff_exists.mp (List.find?_isSome.mpr ⟨q, hq, decide_eq_true hbad⟩)
  obtain ⟨hr, before, after, hsplit, hok⟩ := List.find?_eq_some_iff_append.mp hr
  exact ⟨r, before, after, hsplit, of_decide_eq_true hr, by simpa using hok⟩

/-- The first operand that names no register stops the instruction, whatever the stack holds. Only MOV
has an operand before another. -/
theorem exec_of_firstBad (h : FirstBad i s r) : exec i s = .fault (.registerIndexOutOfRange r) := by
  obtain ⟨before, after, hsplit, hbad, hok⟩ := h
  cases before with
  | nil => exact exec_of_regBad i r after hsplit hbad
  | cons q before =>
    cases i with
    | mov a b =>
      obtain ⟨rfl, hb⟩ : a = q ∧ [b] = before ++ r :: after := by simpa [Instr.regOperands] using hsplit
      obtain ⟨-, hr⟩ : before = [] ∧ r :: after = [b] := by simpa [List.append_eq_singleton_iff] using hb.symm
      cases hr
      obtain ⟨d, hd⟩ := names_of_not_bad (hok a List.mem_cons_self)
      exact execMov_of_second_bad hd hbad
    | _ => simp [Instr.regOperands] at hsplit

theorem exec_of_overflows (h : Overflows i s v) : exec i s = .fault (.stackOverflow v) := by
  obtain ⟨hfull, ⟨a, rfl, rfl⟩ | ⟨r, d, rfl, hd, rfl⟩⟩ := h
  · exact execCall_of_full hfull
  · exact execPush_of_full hd hfull

theorem exec_of_underflows (h : Underflows i s) : exec i s = .fault .stackUnderflow := by
  obtain ⟨hbad, rfl | ⟨r, d, rfl, hd⟩⟩ := h
  · exact execRet_of_bad hbad
  · exact execPop_of_bad hd hbad

theorem RegsOk.names (h : RegsOk i s) (hr : r ∈ i.regOperands) : ∃ d, RegNames s r d :=
  names_of_not_bad (h r hr)

/-- An instruction that runs safely has the effect its rule gives it. -/
theorem exec_of_runsSafely (h : RunsSafely i s) : ∃ t, exec i s = .next t := by
  obtain ⟨hregs, hstack⟩ := h
  cases i with
  | nop | jmp | unrecognized => exact ⟨_, rfl⟩
  | ldi r k =>
    obtain ⟨d, hd⟩ := hregs.names List.mem_cons_self
    exact ⟨_, execLdi_of_names hd⟩
  | mov a b =>
    obtain ⟨d, hd⟩ := hregs.names List.mem_cons_self
    obtain ⟨e, he⟩ := hregs.names (.tail _ List.mem_cons_self)
    exact ⟨_, execMov_of_names hd he⟩
  | out a r =>
    obtain ⟨d, hd⟩ := hregs.names List.mem_cons_self
    exact ⟨_, execOut_of_names hd⟩
  | inp r a =>
    obtain ⟨d, hd⟩ := hregs.names List.mem_cons_self
    exact ⟨_, execIn_of_names hd⟩
  | sts a r =>
    obtain ⟨d, hd⟩ := hregs.names List.mem_cons_self
    exact ⟨_, execSts_of_names hd⟩
  | lds r a =>
    obtain ⟨d, hd⟩ := hregs.names List.mem_cons_self
    exact ⟨_, execLds_of_names hd⟩
  | call a => exact ⟨_, execCall_of_room hstack⟩
  | ret =>
    obtain ⟨v, hv⟩ := answers_of_not_bad hstack
    exact ⟨_, execRet_of_answers hv⟩
  | push r =>
    obtain ⟨d, hd⟩ := hregs.names List.mem_cons_self
    exact ⟨_, execPush_of_room hd hstack⟩
  | pop r =>
    obtain ⟨d, hd⟩ := hregs.names List.mem_cons_self
    obtain ⟨v, hv⟩ := answers_of_not_bad hstack
    exact ⟨_, execPop_of_answers hd hv⟩

/-- An instruction with all its register operands good either runs safely or fails on the stack. -/
theorem runsSafely_or_stack_bad (h : RegsOk i s) :
    RunsSafely i s ∨ (∃ v, Overflows i s v) ∨ Underflows i s := by
  cases i with
  | nop | ldi | mov | out | inp | sts | lds | jmp | unrecognized => exact .inl ⟨h, trivial⟩
  | call a =>
    by_cases hr : HasRoom s
    · exact .inl ⟨h, hr⟩
    · exact .inr (.inl ⟨s.pc, hr, .inl ⟨a, rfl, rfl⟩⟩)
  | ret =>
    by_cases hb : PopBad s
    · exact .inr (.inr ⟨hb, .inl rfl⟩)
    · exact .inl ⟨h, hb⟩
  | push r =>
    obtain ⟨d, hd⟩ := h.names List.mem_cons_self
    by_cases hr : HasRoom s
    · exact .inl ⟨h, hr⟩
    · exact .inr (.inl ⟨s.reg d, hr, .inr ⟨r, d, rfl, hd, rfl⟩⟩)
  | pop r =>
    obtain ⟨d, hd⟩ := h.names List.mem_cons_self
    by_cases hb : PopBad s
    · exact .inr (.inr ⟨hb, .inr ⟨r, d, rfl, hd⟩⟩)
    · exact .inl ⟨h, hb⟩

/-- Every instruction in every state runs safely or meets one of the three model faults. -/
theorem runsSafely_or_bad (i : Instr) (s : State) :
    RunsSafely i s ∨ (∃ r, FirstBad i s r) ∨ (∃ v, Overflows i s v) ∨ Underflows i s := by
  by_cases h : RegsOk i s
  · exact (runsSafely_or_stack_bad h).imp_right .inr
  · exact .inr (.inl (exists_firstBad h))

/-- Everything that can raise a model fault (spec/60_exceptions.md R204). -/
theorem exec_fault_cases (h : exec i s = .fault f) :
    (∃ r, FirstBad i s r ∧ f = .registerIndexOutOfRange r) ∨
      (∃ v, Overflows i s v ∧ f = .stackOverflow v) ∨ (Underflows i s ∧ f = .stackUnderflow) := by
  rcases runsSafely_or_bad i s with hs | ⟨r, hr⟩ | ⟨v, hv⟩ | hu
  · obtain ⟨t, ht⟩ := exec_of_runsSafely hs
    cases ht.symm.trans h
  · cases (exec_of_firstBad hr).symm.trans h
    exact .inl ⟨r, hr, rfl⟩
  · cases (exec_of_overflows hv).symm.trans h
    exact .inr (.inl ⟨v, hv, rfl⟩)
  · cases (exec_of_underflows hu).symm.trans h
    exact .inr (.inr ⟨hu, rfl⟩)

theorem exec_fault_of_not_runsSafely (h : ¬ RunsSafely i s) : ∃ f, exec i s = .fault f := by
  rcases runsSafely_or_bad i s with hs | ⟨r, hr⟩ | ⟨v, hv⟩ | hu
  · exact absurd hs h
  · exact ⟨_, exec_of_firstBad hr⟩
  · exact ⟨_, exec_of_overflows hv⟩
  · exact ⟨_, exec_of_underflows hu⟩

/-- Settles O29: a safe instruction has its rule's effect, any other meets a model fault, and no outcome is
both. -/
theorem everyInstructionRunsExactlyWhereSafe : Obligations.EveryInstructionRunsExactlyWhereSafe := by
  refine fun i s => ⟨⟨exec_of_runsSafely, fun ⟨t, ht⟩ => ?_⟩,
    ⟨exec_fault_of_not_runsSafely, fun ⟨f, hf⟩ hs => ?_⟩⟩
  · by_contra hn
    obtain ⟨f, hf⟩ := exec_fault_of_not_runsSafely hn
    cases ht.symm.trans hf
  · obtain ⟨t, ht⟩ := exec_of_runsSafely hs
    cases ht.symm.trans hf

theorem singleStep_of_exec_fault (hs : s.state = .execute) (h : exec (decodedInstr s) s = .fault f) :
    singleStep s = .fault f := by
  rw [singleStep_execute hs, executeTransition, h, andThen_fault]

/-- Settles O30, by the three causes a model fault can have. -/
theorem modelFaultsByCause : Obligations.ModelFaultsByCause := by
  refine fun i s => ⟨fun r => ⟨fun h => ?_, exec_of_firstBad⟩, fun v => ⟨fun h => ?_, exec_of_overflows⟩,
    ⟨fun h => ?_, exec_of_underflows⟩, fun hs hi f hf => singleStep_of_exec_fault hs (hi ▸ hf)⟩
  all_goals
    obtain ⟨_, hc, ⟨⟩⟩ | ⟨_, hc, ⟨⟩⟩ | ⟨hc, ⟨⟩⟩ := exec_fault_cases h
    exact hc

/-- In EXECUTE a first operand that names no register stops the transition. -/
theorem singleStep_of_regBad {rest : List Byte} (hs : s.state = .execute)
    (hr : (decodedInstr s).regOperands = r :: rest) (hb : RegBad s r) :
    singleStep s = .fault (.registerIndexOutOfRange r) :=
  singleStep_of_exec_fault hs (exec_of_regBad _ r rest hr hb)

/-- Settles O32: the FSM state selects before any check, an unrecognized opcode looks at no operand, and
the first register operand is checked before the second and before the stack. -/
theorem conditionPriority : Obligations.ConditionPriority := by
  refine fun s => ⟨invalidStateResets.1 s,
    fun hs ho => ⟨fullReset s, singleStep_unrecognized hs ho, resetOf_fullReset s⟩, ?_, ?_, ?_⟩
  · intro hs ho hb
    refine singleStep_of_regBad (rest := []) hs ?_ hb
    rcases ho with ho | ho <;> (rw [decodedInstr, ho]; rfl)
  · intro hs ho hb _
    refine singleStep_of_regBad (rest := [s.op2]) hs ?_ hb
    rw [decodedInstr, ho]
    rfl
  · rintro (hs | hs)
    · exact ⟨_, singleStep_fetch hs⟩
    · exact ⟨_, singleStep_decode hs⟩

/-- Settles O50: FETCH and DECODE change nothing that a safe run depends on, so the step ends as the
instruction's rule does. -/
theorem stepSafeExactlyWhereInstructionIs : Obligations.StepSafeExactlyWhereInstructionIs := by
  intro s hs
  have hsafe : RunsSafely (decode (pmRead s s.pc)) (inExecute s) ↔
      RunsSafely (decode (pmRead s s.pc)) s := Iff.rfl
  rw [← hsafe]
  refine ⟨fun ⟨t, ht⟩ => ?_, fun h => ?_⟩
  · by_contra hn
    obtain ⟨f, hf⟩ := exec_fault_of_not_runsSafely hn
    cases ht.symm.trans (step_fetch_of_fault hs rfl hf)
  · obtain ⟨u, hu⟩ := exec_of_runsSafely h
    exact ⟨_, step_fetch_of_exec hs rfl hu⟩

/-- A cycle that fetches an unrecognized word is the full reset of the state it starts in. -/
theorem step_unrecognized (hs : s.state = .fetch) (hd : decode (pmRead s s.pc) = .unrecognized o) :
    step s = .next (fullReset s) :=
  step_fetch_of_exec hs hd rfl

/-- Settles O28: every path to an unrecognized opcode's rule ends in the full reset. -/
theorem unrecognizedOpcodeResets : Obligations.UnrecognizedOpcodeResets := by
  intro o a b hne
  have hdec : decode (joinFields o a b) = .unrecognized o := by
    rcases opcode_cases o with ⟨m, hm⟩ | ho
    · exact absurd hm (hne m)
    · rw [decode_joinFields, decodeFields_unrecognized ho]
  refine ⟨hdec, fun s => ⟨fullReset s, rfl, resetOf_fullReset s⟩, fun s hs hw => ?_⟩
  exact ⟨fullReset s, step_unrecognized hs (hw ▸ hdec), resetOf_fullReset s, _,
    singleStep_fetch (fullReset_state s), rfl, rfl⟩

theorem runSteps_succ (n : Nat) (h : step s = .next t) : runSteps (n + 1) s = runSteps n t := by
  rw [runSteps, h, andThen_next]

/-- Settles O37, by induction on the number of cycles: each is a full reset, after which program memory
holds the image it held before. -/
theorem unrecognizedAtZeroLoopsForever : Obligations.UnrecognizedAtZeroLoopsForever := by
  intro s o hs hpc hpm hd n
  induction n generalizing s with
  | zero =>
    exact ⟨fullReset s, runSteps_succ 0 (step_unrecognized hs (hpc ▸ hd)), resetOf_fullReset s,
      pmRead_congr (fullReset_cfg s) hpm.symm 0 ▸ hd⟩
  | succ n ih =>
    have hd' : decode (pmRead (fullReset s) 0) = .unrecognized o := by
      rwa [pmRead_congr (fullReset_cfg s) hpm.symm]
    obtain ⟨t, ht, hreset, hdt⟩ := ih (fullReset s) rfl rfl rfl hd'
    exact ⟨t, (runSteps_succ _ (step_unrecognized hs (hpc ▸ hd))).trans ht, hreset, hdt⟩

end Sys2Proof.Machine
end

section
/-! SUPPORT. Which bad condition the next transition meets (spec/60_exceptions.md R205), by its outcome
and its one collaborator access. -/

namespace Sys2Proof.Machine

open Sys2Proof

variable {s t : State} {i : Instr} {c : ResetCause} {p : PortAccess} {n : Nat}

/-- A transition with a cause of reset is the full reset. -/
theorem singleStep_of_cause (h : resetCause s = some c) : singleStep s = .next (fullReset s) := by
  by_cases hs : s.state = .invalid
  · exact singleStep_invalid hs
  · obtain ⟨he, ho⟩ : s.state = .execute ∧ opcodeCount ≤ s.opc.toNat := by
      by_contra hn
      rw [resetCause_eq_none hs fun he => not_le.mp fun ho => hn ⟨he, ho⟩] at h
      cases h
    exact singleStep_unrecognized he ho

@[simp] theorem ResetCause.condition_code (c : ResetCause) : c.condition.code = c.code := by cases c <;> rfl
@[simp] theorem Fault.condition_code (f : Fault) : f.condition.code = f.code := by cases f <;> rfl

/-- The condition by the transition's outcome: the cause of its reset, its model fault, or else an access
out of range. -/
theorem conditionOf_cases (s : State) :
    (∃ c, resetCause s = some c ∧ singleStep s = .next (fullReset s) ∧ conditionOf s = some c.condition) ∨
    (∃ f, resetCause s = none ∧ singleStep s = .fault f ∧ conditionOf s = some f.condition) ∨
    (∃ t, resetCause s = none ∧ singleStep s = .next t ∧
      conditionOf s = if (accesses s).any (outOfRange s.cfg) then some .outOfRangeAddress else none) := by
  cases hc : resetCause s with
  | some c => exact .inl ⟨c, rfl, singleStep_of_cause hc, by simp only [conditionOf, hc]⟩
  | none =>
    cases h : singleStep s with
    | next t => exact .inr (.inr ⟨t, rfl, rfl, by simp only [conditionOf, hc, h]⟩)
    | fault f => exact .inr (.inl ⟨f, rfl, rfl, by simp only [conditionOf, hc, h]⟩)
    | refused r => exact absurd h (singleStep_ne_refused s r)

/-- An access out of range does nothing to the stores (decision D4). -/
theorem serveAccess_of_outOfRange {c : Config} (st : Stores) (h : outOfRange c p = true) :
    serveAccess c st p = st := by
  cases p with
  | pmRead | dmRead => rfl
  | dmWrite a v =>
    have ha : c.dmSize ≤ a.toNat := of_decide_eq_true h
    exact if_neg (by omega)
  | stkPush | stkPop | pmReload | dmClear | stkClear => cases h

theorem mem_accessIf {α : Type} {e : Except Fault α} {k : α → List PortAccess} :
    p ∈ accessIf e k ↔ ∃ a, e = .ok a ∧ p ∈ k a := by
  cases e <;> simp

/-- A read that an instruction makes is answered by data memory. -/
theorem eq_memRead_of_mem_execAccesses {a : DataAddr} {v : Byte} (h : .dmRead a v ∈ execAccesses i s) :
    v = memRead s a := by
  cases i with
  | inp | lds =>
    obtain ⟨_, -, h⟩ := mem_accessIf.mp h
    cases List.mem_singleton.mp h
    rfl
  | unrecognized => simp [execAccesses, resetAccesses] at h
  | _ => simp [execAccesses, mem_accessIf] at h

theorem eq_memRead_of_mem_accesses {a : DataAddr} {v : Byte} (h : .dmRead a v ∈ accesses s) :
    v = memRead s a := by
  cases hs : s.state with
  | fetch => simp [accesses_fetch hs] at h
  | decode => simp [accesses_decode hs] at h
  | execute => exact eq_memRead_of_mem_execAccesses (accesses_execute hs ▸ h)
  | invalid => simp [accesses_invalid hs, resetAccesses] at h

/-- A transition that is no reset makes no access beside the one given. -/
theorem accesses_eq_singleton (hc : resetCause s = none) (hp : p ∈ accesses s) : accesses s = [p] := by
  obtain ⟨hle, -⟩ := oneCollaboratorAccessPerTransition s
  obtain ⟨q, hq⟩ := List.length_eq_one_iff.mp (le_antisymm (hle hc) (List.length_pos_of_mem hp))
  rw [hq] at hp ⊢
  rw [List.mem_singleton.mp hp]

/-- A transition whose access is out of range leaves data memory, and reads the default 0
(spec/60_exceptions.md R202). -/
theorem singleStep_of_outOfRange (hc : resetCause s = none) (h : singleStep s = .next t)
    (ha : (accesses s).any (outOfRange s.cfg) = true) :
    SameData s t ∧ (s.state = .fetch → t.ir = 0) ∧ ∀ a v, .dmRead a v ∈ accesses s → v = 0 := by
  obtain ⟨p, hp, hout⟩ := List.any_eq_true.mp ha
  have hone : accesses s = [p] := accesses_eq_singleton hc hp
  refine ⟨memRead_congr (singleStep_cfg h) ?_, fun hs => ?_, fun a v hv => ?_⟩
  · have hstores : storesOf t = storesOf s := by
      rw [storesOf_singleStep h, hone]
      exact serveAccess_of_outOfRange (storesOf s) hout
    exact congrArg Stores.dm hstores
  · rw [singleStep_fetch hs] at h
    cases h
    rw [accesses_fetch hs] at hone
    cases hone
    exact pmRead_of_le (of_decide_eq_true hout)
  · rw [eq_memRead_of_mem_accesses hv]
    rw [hone] at hv
    cases List.mem_singleton.mp hv
    exact memRead_of_le (of_decide_eq_true hout)

/-- The data address an instruction forms, if it forms one (spec/42_data_memory_ops.md R140). -/
def formedAddr : Instr → Option DataAddr
  | .out a _ | .inp _ a => some (ioAddr a)
  | .sts a _ | .lds _ a => some (extAddr a)
  | _ => none

/-- An instruction that reaches a next state makes an access out of range exactly where it forms an
address past DM_SIZE. -/
theorem any_execAccesses_outOfRange_iff (h : exec i s = .next t) :
    (execAccesses i s).any (outOfRange s.cfg) = true ↔
      ∃ d, formedAddr i = some d ∧ s.cfg.dmSize ≤ d.toNat := by
  obtain ⟨hregs, -⟩ := (everyInstructionRunsExactlyWhereSafe i s).1.mpr ⟨t, h⟩
  cases i with
  | nop | ldi | mov | jmp => simp [execAccesses, formedAddr]
  | out | inp | sts | lds =>
    obtain ⟨d, hd⟩ := hregs.names List.mem_cons_self
    simp [execAccesses, regIndex_of_names hd, formedAddr, outOfRange]
  | call | ret | push | pop => simp [execAccesses, mem_accessIf, formedAddr, outOfRange]
  | unrecognized => simp [execAccesses, resetAccesses, formedAddr, outOfRange]

/-- The addresses the twelve opcodes form, by the operand field they form them from. -/
theorem formedAddr_decodeFields_iff (m : Mnemonic) (a b : Byte) (n : Nat) :
    (∃ d, formedAddr (decodeFields m.opcode a b) = some d ∧ n ≤ d.toNat) ↔
      (m = .out ∧ n ≤ a.toNat) ∨ (m = .inp ∧ n ≤ b.toNat) ∨ (m = .sts ∧ n ≤ a.toNat + 256) ∨
        (m = .lds ∧ n ≤ b.toNat + 256) := by
  cases m <;> simp [decodeFields, Mnemonic.opcode, formedAddr, ioAddr_toNat, extAddr_toNat]

theorem opcode_injective : Function.Injective Mnemonic.opcode := by
  intro m m' h
  have hm := mnemonic_decodeFields m 0 0
  rw [h, mnemonic_decodeFields] at hm
  exact (Option.some.inj hm).symm

/-- The next transition reads program memory past PM_SIZE, or forms a data address past DM_SIZE. -/
def ReachesPastStore (s : State) : Prop :=
  (s.state = .fetch ∧ s.cfg.pmSize ≤ s.pc.toNat) ∨
    (s.state = .execute ∧
      ((s.opc = Mnemonic.out.opcode ∧ s.cfg.dmSize ≤ s.op1.toNat) ∨
        (s.opc = Mnemonic.inp.opcode ∧ s.cfg.dmSize ≤ s.op2.toNat) ∨
        (s.opc = Mnemonic.sts.opcode ∧ s.cfg.dmSize ≤ s.op1.toNat + 256) ∨
        (s.opc = Mnemonic.lds.opcode ∧ s.cfg.dmSize ≤ s.op2.toNat + 256)))

theorem any_accesses_outOfRange_iff (hc : resetCause s = none) (h : singleStep s = .next t) :
    (accesses s).any (outOfRange s.cfg) = true ↔ ReachesPastStore s := by
  rcases singleStep_cases h with ⟨hs, -⟩ | ⟨hs, -⟩ | ⟨hs, u, hu, -⟩ | ⟨hs, -⟩
  · simp [accesses_fetch hs, ReachesPastStore, hs, outOfRange]
  · simp [accesses_decode hs, ReachesPastStore, hs]
  · rcases opcode_cases s.opc with ⟨m, hm⟩ | ho
    · rw [accesses_execute hs, any_execAccesses_outOfRange_iff hu, decodedInstr, hm,
        formedAddr_decodeFields_iff]
      simp [ReachesPastStore, hs, hm, opcode_injective.eq_iff]
    · rw [resetCause_unrecognized hs ho] at hc
      cases hc
  · rw [resetCause_invalid hs] at hc
    cases hc

/-- Codes 1 and 2 are the causes of a reset. -/
theorem conditionOf_code_reset_iff (hn : n ∈ [1, 2]) :
    (conditionOf s).map Condition.code = some n ↔ ∃ c, resetCause s = some c ∧ c.code = n := by
  rcases conditionOf_cases s with ⟨c, hc, -, h⟩ | ⟨f, hc, -, h⟩ | ⟨t, hc, -, h⟩
  · simp [hc, h]
  · have hne : f.code ≠ n := by
      rintro rfl
      cases f <;> simp [Fault.code] at hn
    simp [hc, h, hne]
  · have hne : Condition.code .outOfRangeAddress ≠ n := by
      rintro rfl
      simp [Condition.code] at hn
    rw [h]
    split <;> simp [hc, hne]

/-- Codes 4 to 6 are the model faults. -/
theorem conditionOf_code_fault_iff (hn : n ∈ [4, 5, 6]) :
    (conditionOf s).map Condition.code = some n ↔ ∃ f, singleStep s = .fault f ∧ f.code = n := by
  rcases conditionOf_cases s with ⟨c, -, hstep, h⟩ | ⟨f, -, hstep, h⟩ | ⟨t, -, hstep, h⟩
  · have hne : c.code ≠ n := by
      rintro rfl
      cases c <;> simp [ResetCause.code] at hn
    simp [hstep, h, hne]
  · simp [hstep, h]
  · have hne : Condition.code .outOfRangeAddress ≠ n := by
      rintro rfl
      simp [Condition.code] at hn
    rw [h]
    split <;> simp [hstep, hne]

/-- Code 3 is an access out of range in a transition that neither resets nor raises a model fault. -/
theorem conditionOf_code_outOfRange_iff :
    (conditionOf s).map Condition.code = some 3 ↔
      resetCause s = none ∧ (∃ t, singleStep s = .next t) ∧ ReachesPastStore s := by
  rcases conditionOf_cases s with ⟨c, hc, -, h⟩ | ⟨f, -, hstep, h⟩ | ⟨t, hc, hstep, h⟩
  · have hne : c.code ≠ 3 := by cases c <;> simp [ResetCause.code]
    simp [hc, h, hne]
  · have hne : f.code ≠ 3 := by cases f <;> simp [Fault.code]
    simp [hstep, h, hne]
  · rw [h, ← any_accesses_outOfRange_iff hc hstep]
    split
    · next ha => simp [hc, hstep, ha, Condition.code]
    · next ha => simp [ha]

/-- The condition of an access out of range is met by no other transition. -/
theorem of_conditionOf_outOfRange (h : conditionOf s = some .outOfRangeAddress) :
    resetCause s = none ∧ (∃ t, singleStep s = .next t) ∧ (accesses s).any (outOfRange s.cfg) = true := by
  obtain ⟨hc, ⟨t, ht⟩, hpast⟩ := conditionOf_code_outOfRange_iff.mp (congrArg (Option.map Condition.code) h)
  exact ⟨hc, ⟨t, ht⟩, (any_accesses_outOfRange_iff hc ht).mpr hpast⟩

/-- Settles O31, by code: 1 and 2 are the causes of a reset, 4 to 6 the model faults, and 3 the access out
of range of any other transition, which the stores ignore. -/
theorem conditionsAreClassified : Obligations.ConditionsAreClassified := by
  refine fun s => ⟨fun n => conditionOf_code_reset_iff, fun n => conditionOf_code_fault_iff,
    conditionOf_code_outOfRange_iff, fun h => ?_, fun h => ?_⟩
  · obtain ⟨n, hn, hcode⟩ : ∃ n ∈ [1, 2], (conditionOf s).map Condition.code = some n := by
      rcases h with h | h <;> simp [h, Condition.code]
    obtain ⟨c, hc, -⟩ := (conditionOf_code_reset_iff hn).mp hcode
    exact ⟨fullReset s, singleStep_of_cause hc, resetOf_fullReset s⟩
  · obtain ⟨hc, ⟨t, ht⟩, hany⟩ := of_conditionOf_outOfRange h
    exact ⟨t, ht, singleStep_of_outOfRange hc ht hany⟩

end Sys2Proof.Machine
end

section
/-! SUPPORT. The snapshot (spec/60_exceptions.md R211): which labels its items have, and what its two
lists show. -/

namespace Sys2Proof.Machine

open Sys2Proof

theorem mnemonicLabel_opcode (m : Mnemonic) : mnemonicLabel m.opcode = m.name := by
  rw [mnemonicLabel, mnemonic_decodeFields]

theorem mem_snapshot_namedRegs {s : State} {i : Fin 32} {v : Byte} :
    (i, v) ∈ (snapshot s).namedRegs ↔ i ∈ s.cfg.namedRegs ∧ v = s.reg i := by
  simp only [snapshot, List.mem_map, Prod.mk.injEq]
  exact ⟨fun ⟨_, hj, hi, hv⟩ => hi ▸ ⟨hj, hv.symm⟩, fun ⟨hi, hv⟩ => ⟨i, hi, rfl, hv.symm⟩⟩

theorem mem_snapshot_namedIo {s : State} {a : DataAddr} {v : Byte} :
    (a, v) ∈ (snapshot s).namedIo ↔ ∃ b ∈ shownIo s.cfg, a = ioAddr b ∧ v = memRead s (ioAddr b) := by
  simp only [snapshot, List.mem_map, Prod.mk.injEq, ioAddr, eq_comm]

theorem mem_shownIo {c : Config} {b : Byte} :
    b ∈ shownIo c ↔ b = c.dirAddr ∨ b = c.outAddr ∨ b = c.inAddr ∨ b ∈ c.namedIo := by
  simp only [shownIo, List.mem_cons]

/-- Settles O59: the labels by the opcode and the FSM state, the lists by their members, and the other items
are the state's fields. -/
theorem snapshotShowsState : Obligations.SnapshotShowsState := by
  intro s
  exact ⟨fun m hm => (congrArg mnemonicLabel hm).trans (mnemonicLabel_opcode m),
    fun hs => congrArg stateLabel hs, fun hs => congrArg stateLabel hs, fun hs => congrArg stateLabel hs,
    rfl, rfl, rfl, rfl, rfl, fun _ _ => mem_snapshot_namedRegs, fun _ _ => mem_snapshot_namedIo,
    fun _ => mem_shownIo⟩

end Sys2Proof.Machine
end

section
/-! SUPPORT. The full reset (spec/70_reset_and_hazards.md R220-R224): it looks at the model arguments alone,
and so is one reset however it is asked for; the state it leaves, and the machine before and after the
first one. -/

namespace Sys2Proof.Machine

open Sys2Proof

variable {s t : State}

/-- The full reset looks at nothing but the model arguments, apart from the value it draws for `top()`. -/
theorem fullReset_congr (hc : t.cfg = s.cfg) (l : Byte) (n : Nat) :
    { fullReset t with lastPushed := l, draws := n } = { fullReset s with lastPushed := l, draws := n } := by
  simp only [fullReset, hc]

/-- Program memory below PM_SIZE is reloaded from PROGRAM_IMAGE. -/
theorem pmRead_fullReset {a : Byte} (ha : a.toNat < s.cfg.pmSize) :
    pmRead (fullReset s) a = Store.read s.cfg.image.words a.toNat := if_pos ha

/-- Settles O33: the host's request is the full reset. -/
theorem fullResetClearsEverything : Obligations.FullResetClearsEverything := by
  intro s
  exact ⟨fullReset s, rfl, resetOf_fullReset s, fun _ => pmRead_fullReset⟩

/-- Settles O34: each of the four ways is the full reset of a state with the same model arguments, and a
reset keeps those arguments, so a second one finds nothing to change. -/
theorem resetIsUniformAndIdempotent : Obligations.ResetIsUniformAndIdempotent := by
  refine ⟨fun s h => ?_, fun s l n => ?_, fun s l n => ?_⟩
  · rcases h with hs | ⟨hs, ho⟩
    · exact singleStep_invalid hs
    · exact singleStep_unrecognized hs ho
  · exact ⟨fullReset s, fullReset (fullReset s), rfl, rfl, fullReset_congr (fullReset_cfg s) l n⟩
  · exact ⟨fullReset s, bootState s.cfg, rfl, rfl, fullReset_congr rfl l n⟩

theorem resetOf_bootState (c : Config) : ResetOf { State.reset with cfg := c, draws := 0 } (bootState c) :=
  resetOf_fullReset _

theorem flagOf_zero (f : Flag) : flagOf 0 f = false := BitVec.getLsbD_zero

/-- A step from FETCH that is no reset leaves in MAR and IR what it fetched (spec/40_fsm_cycle.md R100):
no recognized instruction's rule writes them. -/
theorem step_fetch_mar_ir (hs : s.state = .fetch) (h : step s = .next t)
    (hc : resetCause (inExecute s) = none) : t.mar = s.pc ∧ t.ir = pmRead s s.pc := by
  have he : (inExecute s).state = .execute := rfl
  have hm : (decodedInstr (inExecute s)).mnemonic ≠ none := (resetCause_execute_eq_none_iff he).mp hc
  have hstep : singleStep (inExecute s) = .next t := step_fetch hs ▸ h
  obtain ⟨u, hu, rfl⟩ : ∃ u, exec (decodedInstr (inExecute s)) (inExecute s) = .next u ∧
      t = u.setState .fetch := by
    simpa [he] using singleStep_cases hstep
  have hkeep : u.withInternalsOf (inExecute s) = u := withInternalsOf_of_exec hm hu
  exact ⟨(congrArg State.mar hkeep).symm, (congrArg State.ir hkeep).symm⟩

/-- Settles O35: the startup reset is the full reset, which leaves PC at 0 for the first fetch. -/
theorem resetStateIsZero : Obligations.ResetStateIsZero := by
  refine ⟨fun c => ?_, rfl, fun c t h hc => step_fetch_mar_ir rfl h hc⟩
  obtain ⟨hreg, hpc, hir, hmar, hopc, hop1, hop2, hsr, hstate, hpm, hmem, -, hstack, hdepth, hcfg⟩ :=
    resetOf_bootState c
  exact ⟨hreg, hpc, hir, hmar, hopc, hop1, hop2, fun f => hsr ▸ flagOf_zero f, hstate, hpm, hmem, hstack,
    hdepth, hcfg⟩

/-- No request of the host is refused by a machine that has been reset. -/
theorem serve_ne_refused (q : HostRequest) (s : State) (r : Refusal) : serve q s ≠ .refused r := by
  cases q with
  | reset => exact nofun
  | singleStep => exact singleStep_ne_refused s r
  | fullCycleStep =>
    obtain ⟨u, -, hu⟩ := step_ends_in_execute s
    have hserve : serve .fullCycleStep s = singleStep u := hu
    exact hserve ▸ singleStep_ne_refused u r

theorem sessionOf_eq_refused_iff {o : Host.Outcome State Fault Refusal} {r : Refusal} :
    sessionOf o = .refused r ↔ o = .refused r := by
  cases o <;> simp [sessionOf]

/-- Settles O36: a session not yet reset serves the reset alone, and a running one refuses nothing. -/
theorem stepBeforeResetIsRefused : Obligations.StepBeforeResetIsRefused := by
  intro c
  exact ⟨rfl, rfl, ⟨bootState c, rfl, rfl, rfl⟩,
    fun q s r h => serve_ne_refused q s r (sessionOf_eq_refused_iff.mp h)⟩

/-- The image is within PM_SIZE where the model arguments are as the spec asks (spec/20_memory.md R52). -/
theorem image_wf_of_configOk {c : Config} (h : configOk c = true) :
    ProgramMemory.wf c.pmSize c.image.words = true := by
  simp only [configOk, Bool.and_eq_true] at h
  exact h.1.2

/-- A full reset leads to a state of the invariant from any state whose image is canonical. -/
theorem inv_fullReset (h : ProgramMemory.wf s.cfg.pmSize s.cfg.image.words = true) : Inv (fullReset s) := by
  have hsound : StoresSound (fullReset s) :=
    { dataCanonical := fullReset_memory_wf s
      programIsImage := rfl
      programCanonical := h
      statusZero := rfl
      stackBounded := fun c _ => Nat.zero_le c }
  exact hsound.inv_of_fetch rfl

theorem inv_bootState {c : Config} (h : configOk c = true) : Inv (bootState c) :=
  inv_fullReset (image_wf_of_configOk h)

theorem configOk_standard : configOk Config.standard = true := by decide

/-- Settles O47: the state after reset is the full reset's, and the model's own is one of those. -/
theorem invariantHoldsAtReset : Obligations.InvariantHoldsAtReset :=
  ⟨inv_bootState configOk_standard, configOk_standard, fun _ => inv_bootState⟩

end Sys2Proof.Machine
end
